-- ==== Sys2Proof/Word.lean ====
section
/-! DEFINITION. Bytes and the names of the JTAG lines (spec/00_scope.md R7, R9; spec/10_state.md R10, R12). -/

namespace Sys2Proof

/-- A byte: 8 bits, bit 0 the least significant; `b.getLsbD i` is the spec's `b[i]` (R7). -/
abbrev Byte := BitVec 8

/-- The three output lines (R10, R12). TDO is an input and has no latch (R11). -/
inductive Line where
  | tck | tms | tdi
deriving DecidableEq, Repr

end Sys2Proof
end

