-- ==== Sys2Proof/Config.lean ====
section
/-! DEFINITION. The implementation's parameters (spec/00_scope.md R4) and the values the spec leaves free. The parameter
`Classify`, `Config.classify`, stands in Decode.lean, with the fields of a byte that its value is made of.
A free value is an opaque constant: nothing can be proved of which value it is. -/

namespace Sys2Proof.Config

/-- `NMAX`, the largest count a shift header can declare (R4, D2). -/
def nmax : Nat := 63

/-- `MTU`, the capacity of the Reply Buffer and the largest write (R4, D10). -/
def mtu : Nat := 64

/-- `RXMAX`, the largest packet one read delivers (R4). -/
def rxmax : Nat := 64

/-- `LINES_RESET`: the level of each output latch after reset. DESIGN CHOICE (safe), log entry 4:
the spec leaves it an open parameter (R151, D7), so it is free. -/
opaque lineReset : Line → Bool

/-- The bit the target answers at the draw of that number (R11, U9). DESIGN CHOICE (safe), log entry 5. -/
opaque tdoBit : Nat → Bool

/-- The count the transport would take at the draw of that number, cut to the length offered (R117, U10).
DESIGN CHOICE (safe), log entry 6. -/
opaque accepted : Nat → Nat

/-- The bytes of the packet the host sends at the draw of that number, cut to `rxmax` (R5, R114).
DESIGN CHOICE (safe), log entry 7. -/
opaque packet : Nat → List Byte

/-- Whether the platform is going to raise GpioFail, and how many failure points pass before it does
(R134, D12). DESIGN CHOICE (safe), log entry 8. -/
opaque gpioPlan : Nat → Option Nat

/-- The level a line has once GpioFail has been raised (R134, U4). DESIGN CHOICE (safe), log entry 9. -/
opaque failLevel : Nat → Line → Bool

end Sys2Proof.Config
end

