-- ==== Sys2Proof/Syntax.lean ====
section
/-! DEFINITION. The commands of spec/opcode_table.json (spec/30_encoding.md R50, R61), one constructor a row. -/

namespace Sys2Proof

/-- The mode a byte is decoded in: the tag of `dstate` (R52; the table's column "context"). -/
inductive Context where
  | idle | inShift
deriving DecidableEq, Repr

/-- One command byte. -/
inductive Instr where
  /-- SNOP, malformed header (R56, R75); `c` is bit 6, ignored. -/
  | snop (c : Bool)
  /-- BB, bit-bang byte (R54, R71): TCK, TMS, TDI levels; `x` is bits 6, 5, 3, 2 of the byte, most significant
  first, ignored (R60). -/
  | bb (k m d : Bool) (x : BitVec 4)
  /-- SHIFT, header without capture (R55, R74). -/
  | shift (n : Nat)
  /-- SHIFTC, header with capture (R55, R74). -/
  | shiftc (n : Nat)
  /-- DATA, a byte inside a session (R58, R90). -/
  | data (b : Byte)
deriving DecidableEq, Repr

/-- The abstract commands of `Classify` (R50). -/
inductive Command where
  | bitBang (k m d : Bool)
  | shiftHeader (n : Nat) (c : Bool)
  | malformed
deriving DecidableEq, Repr

/-- The context an instruction occurs in (R61). -/
def Instr.context : Instr → Context
  | .snop _ => .idle
  | .bb _ _ _ _ => .idle
  | .shift _ => .idle
  | .shiftc _ => .idle
  | .data _ => .inShift

/-- The abstract command an `Idle` instruction stands for (R61); a data byte is none. -/
def Instr.command : Instr → Option Command
  | .snop _ => some .malformed
  | .bb k m d _ => some (.bitBang k m d)
  | .shift n => some (.shiftHeader n false)
  | .shiftc n => some (.shiftHeader n true)
  | .data _ => none

end Sys2Proof
end

