-- ==== Sys2Proof/WellFormed.lean ====
section
/-! DEFINITION. Which instructions the encoding admits (spec/30_encoding.md R50, R55): a header's count lies in
1 to `NMAX`; every other operand is as wide as its field. -/

namespace Sys2Proof

/-- A count a header can declare: `1 <= n <= NMAX` (R50). -/
def countOk (n : Nat) : Bool := decide (1 ≤ n) && decide (n ≤ Config.nmax)

/-- The instruction is one some byte encodes. -/
def Instr.wellFormed : Instr → Bool
  | .snop _ => true
  | .bb _ _ _ _ => true
  | .shift n => countOk n
  | .shiftc n => countOk n
  | .data _ => true

end Sys2Proof
end

