-- ==== Sys2Proof/Decode.lean ====
section
/-! DEFINITION. Bytes to instructions and back (spec/30_encoding.md R51 to R63, decision D1). Every byte value is an
instruction in either context (R60): only a missing byte is rejected. -/

namespace Sys2Proof

/-- The count field `b[5:0]`, an unsigned number (R55, R59). -/
def countField (b : Byte) : Nat := (b.extractLsb' 0 6).toNat

/-- The ignored bits 6, 5, 3, 2 of a bit-bang byte, most significant first (R54, R60). -/
def ignoredField (b : Byte) : BitVec 4 := b.extractLsb' 5 2 ++ b.extractLsb' 2 2

/-- `Classify`, a parameter of the implementation (R4, R50, D1): the whole meaning of a byte in `Idle` is read through
it, so another function here is another build. Its value is the layout of R57, word for word. -/
def Config.classify (b : Byte) : Command :=
  if b.getLsbD 7 = false then .bitBang (b.getLsbD 0) (b.getLsbD 1) (b.getLsbD 4)
  else if countField b = 0 then .malformed
  else .shiftHeader (countField b) (b.getLsbD 6)

/-- One row of the opcode table (R61): the byte matches where `b AND mask = pattern`, and a header's count is
not 0. -/
structure Row where
  mnemonic : String
  context : Context
  pattern : Byte
  mask : Byte
  countNonzero : Bool
deriving DecidableEq, Repr

def rowSnop : Row := ⟨"SNOP", .idle, 0x80, 0xBF, false⟩
def rowBb : Row := ⟨"BB", .idle, 0x00, 0x80, false⟩
def rowShift : Row := ⟨"SHIFT", .idle, 0x80, 0xC0, true⟩
def rowShiftc : Row := ⟨"SHIFTC", .idle, 0xC0, 0xC0, true⟩
def rowData : Row := ⟨"DATA", .inShift, 0x00, 0x00, false⟩

/-- The table, in the order a decoder tests it (R61). -/
def opcodeRows : List Row := [rowSnop, rowBb, rowShift, rowShiftc, rowData]

/-- The mask and pattern test alone: SNOP's two values pass SHIFT's and SHIFTC's too (R61). -/
def rowMask (r : Row) (b : Byte) : Bool := b &&& r.mask == r.pattern

/-- The byte belongs to the row in that context, the row's constraint included. -/
def rowMatches (r : Row) (c : Context) (b : Byte) : Bool :=
  decide (r.context = c) && rowMask r b && (!r.countNonzero || decide (countField b ≠ 0))

/-- The row of an instruction. -/
def Instr.row : Instr → Row
  | .snop _ => rowSnop
  | .bb _ _ _ _ => rowBb
  | .shift _ => rowShift
  | .shiftc _ => rowShiftc
  | .data _ => rowData

/-- The first row, in the table's order, whose mask and pattern the byte passes: a decoder that tests SNOP before SHIFT
and SHIFTC needs no other test (R61). -/
def firstRow (c : Context) (b : Byte) : Option Row :=
  opcodeRows.find? fun r => decide (r.context = c) && rowMask r b

/-- A byte that arrives in `Idle` is the command `Classify` gives (R52, R70), with the bits it ignores (R60) kept as
they stand. -/
def decodeIdle (b : Byte) : Instr :=
  match Config.classify b with
  | .bitBang k m d => .bb k m d (ignoredField b)
  | .shiftHeader n c => if c then .shiftc n else .shift n
  | .malformed => .snop (b.getLsbD 6)

/-- What a byte is in a context: in a session it is data whatever its bits are (R52). -/
def decode (c : Context) (b : Byte) : Instr :=
  match c with
  | .idle => decodeIdle b
  | .inShift => .data b

/-- Why a decoder has no instruction. -/
inductive DecodeError where
  /-- The stream holds no byte (an empty read is legal and is no instruction, R116). -/
  | noByte
deriving DecidableEq, Repr

/-- The first instruction of a stream of bytes and the rest of the stream (R51: one byte each). -/
def decodeBytes (c : Context) (bytes : List Byte) : Except DecodeError (Instr × List Byte) :=
  match bytes with
  | [] => .error .noByte
  | b :: rest => .ok (decode c b, rest)

/-- A bit at a place of a byte. -/
def bitAt (v : Bool) (i : Nat) : Byte := BitVec.ofNat 8 v.toNat <<< i

/-- The ignored bits put back in their places 6, 5, 3, 2 (R63's `x AND 0x6C`). -/
def placeIgnored (x : BitVec 4) : Byte :=
  bitAt (x.getLsbD 3) 6 ||| bitAt (x.getLsbD 2) 5 ||| bitAt (x.getLsbD 1) 3 ||| bitAt (x.getLsbD 0) 2

/-- `enc` of R63. -/
def encode : Instr → Byte
  | .snop c => 0x80 ||| bitAt c 6
  | .bb k m d x => placeIgnored x ||| bitAt d 4 ||| bitAt m 1 ||| bitAt k 0
  | .shift n => 0x80 ||| BitVec.ofNat 8 n
  | .shiftc n => 0xC0 ||| BitVec.ofNat 8 n
  | .data b => b

/-- The bytes of a table word of `nbits` bits: every instruction is one byte (R51), so only 8 is a width. -/
def tableBytes (nbits w : Nat) : List Byte :=
  if nbits = 8 then [BitVec.ofNat 8 w] else []

/-- The instruction the decoder reads from a table word, in the context that holds after reset (R150: `Idle`).
The row DATA has no bits of its own and applies in a session only (log entry 14). -/
def decodeTableWord (nbits w : Nat) : Option Instr :=
  match decodeBytes .idle (tableBytes nbits w) with
  | .ok (i, _) => some i
  | .error _ => none

end Sys2Proof
end

