-- ==== Sys2Proof/Machine/State.lean ====
section
/-! DEFINITION. All the state the spec gives the machine (spec/10_state.md R25), the record of what a step is
observed to do (spec/00_scope.md R6), and what the other agents are going to do (R5), as plain data. -/

namespace Sys2Proof.Machine

/-- `dstate` (R13): one tagged value, so that "idle and in a session" cannot both hold. -/
inductive DState where
  | idle
  /-- A session that still expects `remaining` data bytes (R14) with that capture flag (R15). -/
  | inShift (remaining : Nat) (capture : Bool)
deriving DecidableEq, Repr

/-- The tag of `dstate`: the context a byte is decoded in (R52). -/
def DState.context : DState → Context
  | .idle => .idle
  | .inShift _ _ => .inShift

/-- The output operations a trace is made of (R6). -/
inductive Op where
  | setLine (l : Line) (v : Bool)
  | readTdo (t : Bool)
  | transportWrite (xs : List Byte) (c : Nat)
deriving DecidableEq, Repr

/-- The input events (R5). -/
inductive Event where
  | byte (b : Byte)
  | eop
  | gpioFail
deriving DecidableEq, Repr

structure State where
  /-- `line[TCK]` (R10). -/
  tck : Bool
  /-- `line[TMS]` (R10). -/
  tms : Bool
  /-- `line[TDI]` (R10). -/
  tdi : Bool
  /-- The decoder state (R13 to R15). -/
  dstate : DState
  /-- The output accumulator (R16). -/
  acc : Byte
  /-- The position of the bit transfer in progress (R17). -/
  bitIdx : BitVec 3
  /-- The Reply Buffer, head first (R18). -/
  reply : List Byte
  /-- Sticky: a GpioFail has been taken (R19, R134). -/
  halted : Bool
  /-- Sticky: a reply byte has been lost (R19, R119). -/
  overrun : Bool
  /-- The trace of the run so far, oldest first (R6). The model's own field, log entry 12. -/
  trace : List Op
  /-- The input events presented and not yet taken, in order (R114). The model's own field, log entry 7. -/
  input : List Event
  /-- The target's answers to the coming reads, as far as settled; then `Config.tdoBit`. The model's own field,
  log entry 5. -/
  tdo : List Bool
  /-- The transport's answers to the coming writes, as far as settled; then `Config.accepted`. The model's own
  field, log entry 6. -/
  accepts : List Nat
  /-- `some n`: GpioFail arrives when `n` more failure points (`failPoint`) have passed (R134). The model's own field,
  log entry 8. -/
  gpioFail : Option Nat
  /-- How many free values have been drawn. The model's own field, log entry 5. -/
  draws : Nat
deriving DecidableEq, Repr

/-- The machine stops with a fault: never. The spec has no trap and no byte that faults (R60, R141): a failed
pin operation is the state `halted`, a lost reply byte the state `overrun`. So there is no constructor. -/
inductive Fault where
deriving DecidableEq, Repr

/-- Why an instruction has no meaning. -/
inductive Refusal where
  /-- Raised by `exec`'s arm of an instruction that is not modelled yet (none is). Safe: the model stops. -/
  | notModelled (mnemonic : String)
  /-- Raised by a meaning run directly, by `exec`, in the context that is not its row's (a bit-bang byte or a header
  inside a session, a data byte outside one). The spec has no such case: what a byte is follows from the context
  (R52, R61), so no step raises it. Safe: the model stops. DESIGN CHOICE, log entry 10. -/
  | wrongContext (mnemonic : String)
deriving DecidableEq, Repr

/-- The machine right after reset with given line levels (R150, R151), no event presented yet. -/
def State.resetWith (tck tms tdi : Bool) : State where
  tck := tck
  tms := tms
  tdi := tdi
  dstate := .idle
  acc := 0
  bitIdx := 0
  reply := []
  halted := false
  overrun := false
  trace := []
  input := []
  tdo := []
  accepts := []
  gpioFail := none
  draws := 0

/-- The machine right after reset: the lines at `LINES_RESET`, which is free (R151). -/
def State.reset : State :=
  State.resetWith (Config.lineReset .tck) (Config.lineReset .tms) (Config.lineReset .tdi)

end Sys2Proof.Machine
end

