-- ==== Sys2Proof/Machine/Flags.lean ====
section
/-! DEFINITION. The two sticky flags (spec/10_state.md R19) and the test that sets one of them. There are no
arithmetic flags (spec/41_shift_engine.md R97). -/

namespace Sys2Proof.Machine

/-- Enter the halted state. The core no longer knows the levels of the lines: each is a free value (R134, U4). This
is the one operation that takes an error (R141: nothing is saved, nothing jumps). -/
def State.raiseHalt (s : State) : State :=
  { s with
    halted := true
    tck := Config.failLevel s.draws .tck
    tms := Config.failLevel s.draws .tms
    tdi := Config.failLevel s.draws .tdi
    gpioFail := none
    draws := s.draws + 1 }

/-- A reply byte has been lost (R119). -/
def State.setOverrun (s : State) : State := { s with overrun := true }

/-- The Reply Buffer holds `MTU` bytes (R111). -/
def State.replyFull (s : State) : Bool := s.reply.length == Config.mtu

end Sys2Proof.Machine
end

