-- ==== Sys2Proof/Machine/Operands.lean ====
section
/-! DEFINITION. The operand forms (spec/30_encoding.md R59) and the answers the other agents give
(spec/10_state.md R11, spec/42_reply_transport.md R117). -/

namespace Sys2Proof.Machine

/-- The level TDI takes in bit transfer `i` of a data byte: `b[i]`, least significant first (R32, R58). -/
def dataBit (b : Byte) (i : Nat) : Bool := b.getLsbD i

/-- A TDO sample in the place of its bit transfer: `t << i` (R33, R97). -/
def sampleAt (t : Bool) (i : Nat) : Byte := BitVec.ofNat 8 t.toNat <<< i

/-- The target's answer to the `k`-th read from now: the settled ones, then free bits (R11, U9). -/
def State.tdoAnswer (s : State) (k : Nat) : Bool :=
  s.tdo.getD k (Config.tdoBit (s.draws + (k - s.tdo.length)))

/-- The transport's answer to a write of `len` bytes made now, in 0..len (R117, U10). -/
def State.acceptAnswer (s : State) (len : Nat) : Nat :=
  min (s.accepts.headD (Config.accepted s.draws)) len

/-- The level of an output latch (R8's `line[L]`). -/
def State.line (s : State) (l : Line) : Bool :=
  match l with
  | .tck => s.tck
  | .tms => s.tms
  | .tdi => s.tdi

end Sys2Proof.Machine
end

