-- ==== Sys2Proof/Machine/Ops.lean ====
section
/-! DEFINITION. The primitives every rule is written with (spec/00_scope.md R8), the operations on the Reply Buffer
(spec/42_reply_transport.md R111, R112), and the frame every command runs in (spec/40_dispatch_bitbang.md R70). -/

namespace Sys2Proof.Machine

/-- A point at which GpioFail may arrive (R134): it is raised when the platform's countdown is over. A halted core
takes no notice. Points stand before a command, before each statement of a bit transfer or of a bit-bang byte, and before
`ReplyAppend` or `Flush`; none follows a transport write inside its step, since no output operation does (R134, R140).
DESIGN CHOICE, safe, log entry 8. -/
def State.failPoint (s : State) : State :=
  if s.halted then s
  else
    match s.gpioFail with
    | none => s
    | some 0 => s.raiseHalt
    | some (n + 1) => { s with gpioFail := some n }

/-- One statement with the failure point before it: not performed once a GpioFail has been taken (R134). -/
def act (f : State → State) (s : State) : State :=
  if s.failPoint.halted then s.failPoint else f s.failPoint

/-- Drive one latch, the others unchanged (R10), and note the operation in the trace (R8). -/
def State.driveLine (l : Line) (v : Bool) (s : State) : State :=
  match l with
  | .tck => { s with tck := v, trace := s.trace ++ [.setLine .tck v] }
  | .tms => { s with tms := v, trace := s.trace ++ [.setLine .tms v] }
  | .tdi => { s with tdi := v, trace := s.trace ++ [.setLine .tdi v] }

/-- `SetLine(L, v)` (R8). -/
def setLine (l : Line) (v : Bool) : State → State := act (State.driveLine l v)

/-- The read as it stands in the trace; its answer is used up (R8, R11: no latch changes). -/
def State.noteRead (s : State) : State :=
  { s with
    trace := s.trace ++ [.readTdo (s.tdoAnswer 0)]
    tdo := s.tdo.drop 1
    draws := s.draws + (1 - s.tdo.length) }

/-- `t <- ReadTDO()`, then `k t` (R8). -/
def readTdo (k : Bool → State → State) : State → State := act fun s => k (s.tdoAnswer 0) s.noteRead

/-- The write as it stands in the trace; its answer is used up (R8). -/
def State.noteWrite (s : State) (xs : List Byte) : State :=
  { s with
    trace := s.trace ++ [.transportWrite xs (s.acceptAnswer xs.length)]
    accepts := s.accepts.drop 1
    draws := s.draws + (1 - s.accepts.length) }

/-- `c <- TransportWrite(xs)`, then `k c` (R8, R117). The failure point before it is that of the `ReplyAppend` or `EOP` it
is the first statement of. -/
def transportWrite (xs : List Byte) (k : Nat → State → State) (s : State) : State :=
  k (s.acceptAnswer xs.length) (s.noteWrite xs)

/-- The first `c` bytes leave the Reply Buffer (R112). -/
def State.dropReply (c : Nat) (s : State) : State := { s with reply := s.reply.drop c }

/-- `Flush()` (R112): an empty buffer is not written. -/
def flush (s : State) : State :=
  if s.reply.length > 0 then transportWrite s.reply State.dropReply s else s

/-- A byte enters the Reply Buffer at its tail, or is lost where the buffer is still full (R111, R119). -/
def State.pushReply (v : Byte) (s : State) : State :=
  if s.replyFull then s.setOverrun else { s with reply := s.reply ++ [v] }

/-- `ReplyAppend(v)` (R111): a full buffer is flushed first. -/
def replyAppend (v : Byte) (s : State) : State :=
  (if s.replyFull then flush s else s).pushReply v

/-- Run a command in the context of its row (R61, R70). A halted core does nothing (R77). A GpioFail between the
last step and this one is taken first (R134). -/
def inContext (c : Context) (mnemonic : String) (body : State → State) (s : State) :
    Host.Outcome State Fault Refusal :=
  if s.halted then .next s
  else if s.dstate.context = c then .next (act body s)
  else .refused (.wrongContext mnemonic)

end Sys2Proof.Machine
end

