-- ==== Sys2Proof/Machine/BitBang.lean ====
section
/-! DEFINITION. The bit-bang byte (spec/40_dispatch_bitbang.md R71 to R73). -/

namespace Sys2Proof.Machine

/-- The three pin writes, TMS and TDI before TCK (R71, D8), always all three (D9). -/
def bitBang (k m d : Bool) (s : State) : State :=
  setLine .tck k (setLine .tdi d (setLine .tms m s))

/-- BB (R71). The ignored bits `x` have no effect (R60). -/
def execBb (k m d : Bool) (_x : BitVec 4) (s : State) : Host.Outcome State Fault Refusal :=
  inContext .idle "BB" (bitBang k m d) s

end Sys2Proof.Machine
end

