-- ==== Sys2Proof/Machine/Header.lean ====
section
/-! DEFINITION. The shift-mode headers and the malformed header (spec/40_dispatch_bitbang.md R74, R75). -/

namespace Sys2Proof.Machine

/-- Open a session: `dstate` only, no line, no read, no accumulator (R74, D21). A count outside 1 to `NMAX`, which no byte
encodes, is not tested: run directly, such a header opens that session (DESIGN CHOICE, safe, log entry 23). -/
def openSession (n : Nat) (c : Bool) (s : State) : State := { s with dstate := .inShift n c }

/-- SHIFT (R74, capture 0). -/
def execShift (n : Nat) (s : State) : Host.Outcome State Fault Refusal :=
  inContext .idle "SHIFT" (openSession n false) s

/-- SHIFTC (R74, capture 1). -/
def execShiftc (n : Nat) (s : State) : Host.Outcome State Fault Refusal :=
  inContext .idle "SHIFTC" (openSession n true) s

/-- SNOP (R75): nothing, whatever bit 6 is. -/
def execSnop (_c : Bool) (s : State) : Host.Outcome State Fault Refusal :=
  inContext .idle "SNOP" id s

end Sys2Proof.Machine
end

