-- ==== Sys2Proof/Machine/ShiftEngine.lean ====
section
/-! DEFINITION. The data byte (spec/41_shift_engine.md R90 to R100). -/

namespace Sys2Proof.Machine

/-- `bit_idx <- i` (R17). -/
def State.setBitIdx (i : Nat) (s : State) : State := { s with bitIdx := BitVec.ofNat 3 i }

/-- `acc <- acc | (t << i)` (R90). -/
def State.orSample (t : Bool) (i : Nat) (s : State) : State := { s with acc := s.acc ||| sampleAt t i }

/-- `acc <- 0` (R90). -/
def State.clearAcc (s : State) : State := { s with acc := 0 }

/-- One data byte less in the session; at 0 the session closes (R90, R94). -/
def DState.afterByte (r : Nat) (c : Bool) : DState := if r - 1 = 0 then .idle else .inShift (r - 1) c

/-- The byte is done (R90); no bit transfer is in progress any more (R17). -/
def State.finishByte (r : Nat) (c : Bool) (s : State) : State :=
  { s with dstate := DState.afterByte r c, bitIdx := 0 }

/-- Step 3 of a bit transfer: read TDO into bit `i` of the accumulator (R90). -/
def sampleTdo (i : Nat) : State → State := readTdo fun t => act (State.orSample t i)

/-- Bit transfer `i`: TDI, TCK high, TCK low, and with capture the sample (R91). -/
def bitTransfer (c : Bool) (b : Byte) (i : Nat) (s : State) : State :=
  let pulsed := setLine .tck false (setLine .tck true (setLine .tdi (dataBit b i) (act (State.setBitIdx i) s)))
  if c then sampleTdo i pulsed else pulsed

/-- The eight bit transfers, bit 0 first (R32, R90). -/
def bitTransfers (c : Bool) (b : Byte) (s : State) : State :=
  (List.range 8).foldl (fun s i => bitTransfer c b i s) s

/-- With capture, the accumulator is the reply byte; it is appended and cleared (R90). -/
def replyStage (c : Bool) (s : State) : State :=
  if c then (replyAppend s.acc s).clearAcc else s

/-- What follows the eight bit transfers (R90), as one statement: its one output operation, a transport write, is its
first, so no GpioFail falls between its parts (R134), and a byte that met a failed write meets no GpioFail (R140). -/
def endByte (r : Nat) (c : Bool) (s : State) : State := (replyStage c s).finishByte r c

/-- DATA(b) in a session with `r` bytes to come (R90). -/
def shiftByte (r : Nat) (c : Bool) (b : Byte) (s : State) : State :=
  act (endByte r c) (bitTransfers c b s)

/-- DATA(b): `r` and `c` are implicit operands, taken from `dstate` (R90). -/
def dataByte (b : Byte) (s : State) : State :=
  match s.dstate with
  | .idle => s
  | .inShift r c => shiftByte r c b s

/-- DATA (R90). -/
def execData (b : Byte) (s : State) : Host.Outcome State Fault Refusal :=
  inContext .inShift "DATA" (dataByte b) s

end Sys2Proof.Machine
end

