-- ==== Sys2Proof/Machine/Dispatch.lean ====
section
/-! DEFINITION. One arm per instruction (spec/40_dispatch_bitbang.md R70). -/

namespace Sys2Proof.Machine

def exec (i : Instr) (s : State) : Host.Outcome State Fault Refusal :=
  match i with
  | .snop c => Sys2Proof.Machine.execSnop c s
  | .bb k m d x => Sys2Proof.Machine.execBb k m d x s
  | .shift n => Sys2Proof.Machine.execShift n s
  | .shiftc n => Sys2Proof.Machine.execShiftc n s
  | .data b => Sys2Proof.Machine.execData b s

end Sys2Proof.Machine
end

