-- ==== Sys2Proof/Machine/Events.lean ====
section
/-! DEFINITION. The input events and where they come from (spec/00_scope.md R5; spec/40_dispatch_bitbang.md R70;
spec/42_reply_transport.md R113, R114; spec/60_exceptions.md R134). -/

namespace Sys2Proof.Machine

/-- `Byte(b)`: the byte is decoded in the `dstate` of this moment and run (R45, R52, R70). A halted core does
nothing with it (R77; `inContext` tests it). -/
def onByte (b : Byte) (s : State) : Host.Outcome State Fault Refusal :=
  exec (decode s.dstate.context b) s

/-- `EOP`: flush, unless halted (R113; `act` tests it). -/
def onEop (s : State) : State := act flush s

/-- `GpioFail` between two steps (R134). -/
def onGpioFail (s : State) : State := s.raiseHalt

/-- The core's step on one input event (R5). -/
def onEvent (e : Event) (s : State) : Host.Outcome State Fault Refusal :=
  match e with
  | .byte b => onByte b s
  | .eop => .next (onEop s)
  | .gpioFail => .next (onGpioFail s)

/-- The events of a packet: its bytes in order, then `EOP` (R114). -/
def packetEvents (bs : List Byte) : List Event := bs.map Event.byte ++ [.eop]

/-- The adapter reads the next packet, of at most `RXMAX` bytes, and presents its events (R114, R116). The platform's
failure, where none is pending, is settled anew (R134). The core itself does nothing. -/
def State.readPacket (s : State) : State :=
  { s with
    input := packetEvents ((Config.packet s.draws).take Config.rxmax)
    gpioFail := s.gpioFail.or (Config.gpioPlan s.draws)
    draws := s.draws + 1 }

/-- Other events pending, the rest of the state unchanged. -/
def State.setInput (es : List Event) (s : State) : State := { s with input := es }

/-- The next event and the state without it; none where the adapter has presented nothing. -/
def State.takeEvent (s : State) : Option (Event × State) :=
  match s.input with
  | [] => none
  | e :: rest => some (e, s.setInput rest)

/-- One event where there is one, else the adapter's read. -/
def runNext (s : State) : Host.Outcome State Fault Refusal :=
  match s.takeEvent with
  | some (e, s') => onEvent e s'
  | none => .next s.readPacket

/-- A byte put where the next event is taken from. -/
def State.presentByte (b : Byte) (s : State) : State := s.setInput (.byte b :: s.input)

end Sys2Proof.Machine
end

