-- ==== Sys2Proof/Machine/Step.lean ====
section
/-! DEFINITION. One step of the machine (spec/00_scope.md R5), and a command placed where it is taken next. -/

namespace Sys2Proof.Machine

/-- One step: the core takes the next input event, or the adapter reads a packet. -/
def step (s : State) : Host.Outcome State Fault Refusal := runNext s

/-- The instruction is one byte (R51); `nbits` above 8 add only zeros, fewer are zero-extended. Nothing but the
input changes, so a state in a session runs the byte as data. -/
def State.withFetchWord (s : State) (nbits w : Nat) : State :=
  s.presentByte (BitVec.ofNat 8 (w % 2 ^ nbits))

end Sys2Proof.Machine
end

