-- ==== Sys2Proof/Safety.lean ====
section
/-! DEFINITION. What claims are made of: the observations of a run (spec/00_scope.md R6), the invariants of a
state (spec/10_state.md R24), and what counts as a clean run (spec/70_reset_and_hazards.md R154). -/

namespace Sys2Proof.Machine

/-- Not halted, and the platform is not going to raise GpioFail inside the step (R134, R135). -/
def State.Undisturbed (s : State) : Prop := s.halted = false ∧ s.gpioFail = none

/-- The state with no GpioFail coming. -/
def State.calm (s : State) : State := { s with gpioFail := none }

/-- The operations performed between two states of a run: its trace less what was there before (R6). -/
def newOps (s t : State) : List Op := t.trace.drop s.trace.length

/-- The reply stream of a trace: of each write, the bytes the transport took (R120). -/
def replyStream : List Op → List Byte
  | [] => []
  | .setLine _ _ :: ops => replyStream ops
  | .readTdo _ :: ops => replyStream ops
  | .transportWrite xs c :: ops => xs.take c ++ replyStream ops

/-- The answers of the reads of a trace, in order (R11). -/
def tdoReads : List Op → List Bool
  | [] => []
  | .setLine _ _ :: ops => tdoReads ops
  | .readTdo t :: ops => t :: tdoReads ops
  | .transportWrite _ _ :: ops => tdoReads ops

/-- The blocks offered to the transport by a trace, in order, with the counts taken (R112, R117). -/
def offeredWrites : List Op → List (List Byte × Nat)
  | [] => []
  | .setLine _ _ :: ops => offeredWrites ops
  | .readTdo _ :: ops => offeredWrites ops
  | .transportWrite xs c :: ops => (xs, c) :: offeredWrites ops

/-- How many pin operations a trace holds (R8: SetLine and ReadTDO). -/
def pinOps : List Op → Nat
  | [] => 0
  | .setLine _ _ :: ops => pinOps ops + 1
  | .readTdo _ :: ops => pinOps ops + 1
  | .transportWrite _ _ :: ops => pinOps ops

/-- Samples packed into a byte, the first sample bit 0 (R33, R92). -/
def packByte : List Bool → Byte
  | [] => 0
  | t :: ts => (packByte ts <<< 1) ||| BitVec.ofNat 8 t.toNat

/-- Samples packed into bytes, eight at a time, in order (R34, R92); fewer than eight make no byte. -/
def packBytes : List Bool → List Byte
  | t0 :: t1 :: t2 :: t3 :: t4 :: t5 :: t6 :: t7 :: ts => packByte [t0, t1, t2, t3, t4, t5, t6, t7] :: packBytes ts
  | _ => []

/-- The levels of the three output lines. -/
structure Levels where
  tck : Bool
  tms : Bool
  tdi : Bool
deriving DecidableEq, Repr

/-- The levels the latches hold (R10). -/
def State.levels (s : State) : Levels := ⟨s.tck, s.tms, s.tdi⟩

/-- The state with other levels in its latches. -/
def State.withLevels (l : Levels) (s : State) : State := { s with tck := l.tck, tms := l.tms, tdi := l.tdi }

/-- A change of the level of TCK, with the levels of TMS and TDI at it (R9, R72). -/
structure Edge where
  rising : Bool
  tms : Bool
  tdi : Bool
deriving DecidableEq, Repr

/-- The edges of TCK a trace makes, from given levels on (R9). -/
def edges (l : Levels) : List Op → List Edge
  | [] => []
  | .setLine .tck v :: ops => (if v = l.tck then [] else [⟨v, l.tms, l.tdi⟩]) ++ edges { l with tck := v } ops
  | .setLine .tms v :: ops => edges { l with tms := v } ops
  | .setLine .tdi v :: ops => edges { l with tdi := v } ops
  | .readTdo _ :: ops => edges l ops
  | .transportWrite _ _ :: ops => edges l ops

/-- How many rising edges of TCK a trace makes. -/
def risingEdges (l : Levels) (ops : List Op) : Nat := ((edges l ops).filter (·.rising)).length

/-- Every read answered the level TDI had: the wiring of R96. The first argument is that level at the start. -/
def loopBack (tdi : Bool) : List Op → Bool
  | [] => true
  | .setLine .tdi v :: ops => loopBack v ops
  | .setLine .tck _ :: ops => loopBack tdi ops
  | .setLine .tms _ :: ops => loopBack tdi ops
  | .readTdo t :: ops => (t == tdi) && loopBack tdi ops
  | .transportWrite _ _ :: ops => loopBack tdi ops

/-- The transport took every byte of every write (R121). -/
def acceptsAll (ops : List Op) : Bool := (offeredWrites ops).all fun w => w.2 == w.1.length

/-- The operations of one bit transfer (R91): TDI level `d`, and with capture the answer `t`. -/
def transferOps (c : Bool) (d t : Bool) : List Op :=
  [.setLine .tdi d, .setLine .tck true, .setLine .tck false] ++ if c then [.readTdo t] else []

/-- The operations of the eight bit transfers of a data byte (R91), `t i` the answer in transfer `i`. -/
def dataOps (c : Bool) (b : Byte) (t : Nat → Bool) : List Op :=
  (List.range 8).flatMap fun i => transferOps c (b.getLsbD i) (t i)

/-- The next eight answers of the target, in order. -/
def State.nextSamples (s : State) : List Bool := (List.range 8).map s.tdoAnswer

/-- `dstate` is legal (R14, R24 I1). -/
def DState.legal : DState → Bool
  | .idle => true
  | .inShift r _ => decide (1 ≤ r) && decide (r ≤ Config.nmax)

/-- The invariants of a state (R24): I1, I2, I3. (I4 is the type of the latches; I5 is about a step.) -/
structure State.Inv (s : State) : Prop where
  legal : s.dstate.legal = true
  quiet : s.halted = false → s.acc = 0 ∧ s.bitIdx = 0
  room : s.reply.length ≤ Config.mtu

/-- The law of the reply stream (R120), for a run that is neither halted nor overrun: what the transport took,
followed by what is still queued, is every captured byte in order, none lost, duplicated or reordered. -/
def State.ReplyLaw (s : State) : Prop :=
  s.halted = false → s.overrun = false →
    replyStream s.trace ++ s.reply = packBytes (tdoReads s.trace) ∧ (tdoReads s.trace).length % 8 = 0

/-- The flags of a clean run (R154); where the run ends is `CleanRun`. -/
def State.clean (s : State) : Bool := !s.halted && !s.overrun

/-- The state of a complete run (R154); where the run ends is `CompleteRun`. -/
def State.complete (s : State) : Bool := s.clean && s.dstate == .idle && s.reply == []

/-- So many steps of the machine, stopping where a step does not answer a next state. -/
def steps : Nat → State → Host.Outcome State Fault Refusal
  | 0, s => .next s
  | k + 1, s =>
    match step s with
    | .next t => steps k t
    | .fault r => .fault r
    | .refused r => .refused r

/-- A finite run from `s` to `t` (R154, D5): `k` steps, and then the `EOP` step it ends with. -/
def FiniteRun (k : Nat) (s t : State) : Prop :=
  ∃ u, steps k s = .next u ∧ u.input.head? = some .eop ∧ step u = .next t

/-- A finite run that is clean at its end (R154). -/
def CleanRun (k : Nat) (s t : State) : Prop := FiniteRun k s t ∧ t.clean = true

/-- A finite run that is clean and complete at its end (R154). -/
def CompleteRun (k : Nat) (s t : State) : Prop := FiniteRun k s t ∧ t.complete = true

/-- The core's steps on a list of events, stopping where a step does not answer a next state (R5). -/
def feed : List Event → State → Host.Outcome State Fault Refusal
  | [], s => .next s
  | e :: es, s =>
    match onEvent e s with
    | .next t => feed es t
    | .fault r => .fault r
    | .refused r => .refused r

/-- How many of the events are bytes. -/
def byteCount : List Event → Nat
  | [] => 0
  | .byte _ :: es => byteCount es + 1
  | .eop :: es => byteCount es
  | .gpioFail :: es => byteCount es

/-- The events hold no GpioFail. -/
def noGpioFail : List Event → Bool
  | [] => true
  | .byte _ :: es => noGpioFail es
  | .eop :: es => noGpioFail es
  | .gpioFail :: _ => false

end Sys2Proof.Machine
end

