-- ==== Sys2Proof/Certificates/Slice0/Obligations.lean ====
section
/-! DEFINITION. The statements about the machine, from the numbered rules of spec/. `State.Undisturbed` means: not
halted, and no GpioFail is coming inside the step. Where a statement is about a free value (an answer of the target or
of the transport, a line level after reset or after GpioFail), it holds for every value. -/

open Sys2Proof Sys2Proof.Machine

/-! ## Encoding -/

/-- The classification vectors E1 to E20 of spec/95_test_vectors.md. -/
def Obligations.ListedWordsDecode : Prop :=
  decode .idle 0x00 = .bb false false false 0b0000 ∧ decode .idle 0x01 = .bb true false false 0b0000 ∧
  decode .idle 0x02 = .bb false true false 0b0000 ∧ decode .idle 0x10 = .bb false false true 0b0000 ∧
  decode .idle 0x13 = .bb true true true 0b0000 ∧ decode .idle 0x6C = .bb false false false 0b1111 ∧
  decode .idle 0x7F = .bb true true true 0b1111 ∧ decode .idle 0x2E = .bb false true false 0b0111 ∧
  decode .idle 0x4A = .bb false true false 0b1010 ∧ decode .idle 0x80 = .snop false ∧
  decode .idle 0xC0 = .snop true ∧ decode .idle 0x81 = .shift 1 ∧ decode .idle 0xBF = .shift 63 ∧
  decode .idle 0xC1 = .shiftc 1 ∧ decode .idle 0xFF = .shiftc 63 ∧ decode .idle 0xA5 = .shift 37 ∧
  decode .idle 0xE4 = .shiftc 36 ∧ decode .inShift 0xC1 = .data 0xC1 ∧ decode .inShift 0x80 = .data 0x80 ∧
  decode .inShift 0x00 = .data 0x00

/-- R57: `Classify` in full, with its counts: 128 bit-bang bytes, each of the 8 combinations 16 times, 126 headers,
2 malformed bytes. -/
def Obligations.DecoderFollowsClassify : Prop :=
  (∀ b : Byte, (decode .idle b).command = some (Config.classify b) ∧
    Config.classify b =
      if b.getLsbD 7 = false then .bitBang (b.getLsbD 0) (b.getLsbD 1) (b.getLsbD 4)
      else if b.toNat % 64 = 0 then .malformed else .shiftHeader (b.toNat % 64) (b.getLsbD 6)) ∧
  (∀ k m d : Bool,
    ((List.range 256).filter fun n => Config.classify (BitVec.ofNat 8 n) == .bitBang k m d).length = 16) ∧
  (∀ b : Byte, b.toNat ≤ 0x7F ↔ Config.classify b = .bitBang (b.getLsbD 0) (b.getLsbD 1) (b.getLsbD 4)) ∧
  (∀ b : Byte, 0x81 ≤ b.toNat ∧ b.toNat ≤ 0xBF ↔ Config.classify b = .shiftHeader (b.toNat % 64) false) ∧
  (∀ b : Byte, 0xC1 ≤ b.toNat ↔ Config.classify b = .shiftHeader (b.toNat % 64) true) ∧
  (∀ b : Byte, b = 0x80 ∨ b = 0xC0 ↔ Config.classify b = .malformed)

/-- R61: in `Idle` the rows are disjoint and cover every byte, the decoder answers the row that matches, and the two
SNOP bytes also pass the mask of SHIFT or SHIFTC; testing the masks alone in the table's order, SNOP before those two,
finds the same row. In a session only DATA matches. -/
def Obligations.RowsPartitionTheBytes : Prop :=
  ∀ (c : Context) (b : Byte),
    rowMatches (decode c b).row c b = true ∧
    (∀ r ∈ opcodeRows, rowMatches r c b = true → r = (decode c b).row) ∧
    firstRow c b = some (decode c b).row ∧
    (rowMask rowSnop b = true → rowMask rowShift b = true ∨ rowMask rowShiftc b = true)

/-- R63: the encoding function, its four laws against `Classify`, and the eight bit-bang bytes with ignored bits 0. -/
def Obligations.EncodingFunction : Prop :=
  (∀ (k m d : Bool) (x : Byte), encode (.bb k m d (ignoredField x)) =
    (x &&& 0x6C) ||| (BitVec.ofNat 8 d.toNat <<< 4) ||| (BitVec.ofNat 8 m.toNat <<< 1) ||| BitVec.ofNat 8 k.toNat) ∧
  (∀ n, 1 ≤ n → n ≤ 63 → encode (.shift n) = 0x80 ||| BitVec.ofNat 8 n ∧
    encode (.shiftc n) = 0xC0 ||| BitVec.ofNat 8 n) ∧
  (∀ c : Bool, encode (.snop c) = 0x80 ||| (BitVec.ofNat 8 c.toNat <<< 6)) ∧
  (∀ v : Byte, encode (.data v) = v) ∧
  (∀ (k m d : Bool) (x : BitVec 4), Config.classify (encode (.bb k m d x)) = .bitBang k m d) ∧
  (∀ n, 1 ≤ n → n ≤ 63 → Config.classify (encode (.shift n)) = .shiftHeader n false ∧
    Config.classify (encode (.shiftc n)) = .shiftHeader n true) ∧
  (∀ c : Bool, Config.classify (encode (.snop c)) = .malformed) ∧
  encode (.bb false false false 0) = 0x00 ∧ encode (.bb true false false 0) = 0x01 ∧
  encode (.bb false true false 0) = 0x02 ∧ encode (.bb true true false 0) = 0x03 ∧
  encode (.bb false false true 0) = 0x10 ∧ encode (.bb true false true 0) = 0x11 ∧
  encode (.bb false true true 0) = 0x12 ∧ encode (.bb true true true 0) = 0x13

/-- Every well-formed instruction is read back from its own byte, in its own context, every operand at every value. -/
def Obligations.DecodeOfEncode : Prop :=
  ∀ i : Instr, i.wellFormed = true → decode i.context (encode i) = i

/-- Every byte is the encoding of what is decoded from it, which is well-formed and of that context. -/
def Obligations.EncodeOfDecode : Prop :=
  ∀ (c : Context) (b : Byte),
    encode (decode c b) = b ∧ (decode c b).wellFormed = true ∧ (decode c b).context = c

/-! ## Reset -/

/-- R150: what reset leaves, and that the first byte after it is classified in `Idle`. -/
def Obligations.ResetLeavesAnIdleCore : Prop :=
  State.reset.dstate = .idle ∧ State.reset.acc = 0 ∧ State.reset.bitIdx = 0 ∧ State.reset.reply = [] ∧
  State.reset.halted = false ∧ State.reset.overrun = false ∧
  ∀ b : Byte, step (State.reset.presentByte b) = exec (decodeIdle b) State.reset

/-- R151: whatever the levels after reset are, a bit-bang byte sent first makes them known: from any two triples of
reset levels it leads to the same state. That the levels are free is the model's choice, log entry 4. -/
def Obligations.FirstBitBangSettlesTheLines : Prop :=
  ∀ (k m d : Bool) (x : BitVec 4) (l l' : Levels), ∃ t : State,
    exec (.bb k m d x) (State.resetWith l.tck l.tms l.tdi) = .next t ∧
    exec (.bb k m d x) (State.resetWith l'.tck l'.tms l'.tdi) = .next t ∧ t.levels = ⟨k, m, d⟩

/-- The invariants hold at reset. -/
def Obligations.InvHoldsAtReset : Prop := State.reset.Inv ∧ State.reset.ReplyLaw

/-! ## The step -/

/-- When the next event is a byte, the step is the meaning of the instruction decoded from it in the present `dstate`,
run on the state without that event. -/
def Obligations.StepRunsTheDecodedByte : Prop :=
  ∀ (s : State) (b : Byte) (rest : List Event), s.input = .byte b :: rest →
    step s = exec (decode s.dstate.context b) (s.setInput rest)

/-- A table word placed for fetching is run by the very next step; in `Idle` it is the instruction the table decoder
reads. -/
def Obligations.PlacedWordIsRunNext : Prop :=
  ∀ (s : State) (w : Nat), w < 256 →
    step (s.withFetchWord 8 w) = exec (decode s.dstate.context (BitVec.ofNat 8 w)) s ∧
    decodeTableWord 8 w = some (decode .idle (BitVec.ofNat 8 w))

/-- R70: the dispatch of a byte: no effect when halted; in `Idle` the command `Classify` gives; in a session DATA. -/
def Obligations.DispatchOfAByte : Prop :=
  ∀ (s : State) (b : Byte) (rest : List Event), s.input = .byte b :: rest →
    (s.halted = true → step s = .next (s.setInput rest)) ∧
    (s.halted = false → s.dstate = .idle →
      match Config.classify b with
      | .bitBang k m d => ∃ x, step s = exec (.bb k m d x) (s.setInput rest)
      | .shiftHeader n c => step s = exec (if c then .shiftc n else .shift n) (s.setInput rest)
      | .malformed => ∃ c, step s = exec (.snop c) (s.setInput rest)) ∧
    (s.halted = false → ∀ r c, s.dstate = .inShift r c → step s = exec (.data b) (s.setInput rest))

/-- R60: no step faults or is refused, in any state; and where no GpioFail is coming, no byte halts the core. -/
def Obligations.NoByteTrapsFaultsOrHalts : Prop :=
  ∀ s : State, ∃ t, step s = .next t ∧
    ∀ b rest, s.input = .byte b :: rest → s.gpioFail = none → t.halted = s.halted

/-- R31, R70: every step takes exactly the first event and leaves the others in order. -/
def Obligations.EventsAreTakenInOrder : Prop :=
  ∀ (s t : State) (e : Event) (rest : List Event), s.input = e :: rest → step s = .next t → t.input = rest

/-- R114: where no event is pending the adapter reads a packet of at most `RXMAX` bytes, any packet, and presents its
bytes and then `EOP`; nothing of the core changes. That this is a step of its own is the model's choice, log entry 7; that
a countdown to GpioFail already running is kept is the model's choice, log entry 8. -/
def Obligations.AdapterPresentsAPacket : Prop :=
  ∀ s : State, s.input = [] → ∃ (bs : List Byte) (t : State),
    step s = .next t ∧ bs.length ≤ Config.rxmax ∧ t.input = bs.map .byte ++ [.eop] ∧
    t = { s with input := t.input, gpioFail := t.gpioFail, draws := t.draws } ∧
    (∀ n, s.gpioFail = some n → t.gpioFail = some n)

/-- R77: a byte or an `EOP` taken while halted has no effect; the byte is lost. -/
def Obligations.HaltedCoreIgnoresEvents : Prop :=
  ∀ (s : State) (e : Event) (rest : List Event), s.halted = true → s.input = e :: rest → e ≠ .gpioFail →
    step s = .next (s.setInput rest)

/-- R135: a halted core stays halted whatever comes: no pin operation, no transport write, no change; at a further
GpioFail alone the levels of the lines, which are unknown, are drawn anew (the model's choice, log entry 19). -/
def Obligations.HaltIsForever : Prop :=
  ∀ s t : State, s.halted = true → step s = .next t →
    t.halted = true ∧ t.dstate = s.dstate ∧ t.acc = s.acc ∧ t.bitIdx = s.bitIdx ∧ t.reply = s.reply ∧
    t.overrun = s.overrun ∧ t.trace = s.trace ∧ (s.input.head? ≠ some .gpioFail → t.levels = s.levels)

/-- R134: GpioFail between two steps halts the core and touches nothing else but the lines' levels. -/
def Obligations.GpioFailHalts : Prop :=
  ∀ (s : State) (rest : List Event), s.input = .gpioFail :: rest → ∃ t, step s = .next t ∧
    t.halted = true ∧ t.dstate = s.dstate ∧ t.acc = s.acc ∧ t.bitIdx = s.bitIdx ∧ t.reply = s.reply ∧
    t.overrun = s.overrun ∧ t.trace = s.trace ∧ t.input = rest

/-- R134: GpioFail inside a step cuts it short. Against the same step undisturbed: either the step was completed and
differs only in the countdown, or the core is halted, the operations performed are the first ones of the undisturbed
step, and `dstate` is what it was. Where GpioFail may arrive is the model's choice, log entry 8. -/
def Obligations.GpioFailCutsTheStep : Prop :=
  ∀ (s t u : State) (e : Event) (rest : List Event), s.halted = false → s.input = e :: rest → e ≠ .gpioFail →
    step s = .next t → step s.calm = .next u →
    (t.halted = false → u = t.calm) ∧
    (t.halted = true → t.trace <+: u.trace ∧ t.dstate = s.dstate ∧ u.halted = false)

/-- R134, R137: only GpioFail halts: an event of that name, or one that was coming. -/
def Obligations.OnlyGpioFailHalts : Prop :=
  ∀ s t : State, step s = .next t → s.halted = false → t.halted = true →
    s.input.head? = some .gpioFail ∨ s.gpioFail ≠ none

/-- R19, R24 (I5): `halted` and `overrun` never go from 1 to 0. -/
def Obligations.FaultFlagsAreSticky : Prop :=
  ∀ s t : State, step s = .next t →
    (s.halted = true → t.halted = true) ∧ (s.overrun = true → t.overrun = true)

/-- R24 (I1, I2, I3): every step keeps the invariants, from every state that has them. -/
def Obligations.EveryStepKeepsInv : Prop :=
  ∀ s t : State, s.Inv → step s = .next t → t.Inv

/-- R76: the decoder's transitions, complete. -/
def Obligations.TransitionTable : Prop :=
  (∀ (s : State) (b : Byte) (rest : List Event), s.Undisturbed → s.input = .byte b :: rest →
    ∃ t, step s = .next t ∧
      (s.dstate = .idle → t.dstate =
        match Config.classify b with
        | .bitBang _ _ _ => .idle
        | .shiftHeader n c => .inShift n c
        | .malformed => .idle) ∧
      (∀ r c, s.dstate = .inShift r c → 2 ≤ r → t.dstate = .inShift (r - 1) c) ∧
      (∀ c, s.dstate = .inShift 1 c → t.dstate = .idle)) ∧
  (∀ (s : State) (rest : List Event), s.input = .eop :: rest → ∃ t, step s = .next t ∧ t.dstate = s.dstate) ∧
  (∀ (s : State) (rest : List Event), s.input = .gpioFail :: rest →
    ∃ t, step s = .next t ∧ t.dstate = s.dstate ∧ t.halted = true)

/-- R6: a step only adds to the trace: what was observed stays observed. -/
def Obligations.TraceOnlyGrows : Prop :=
  ∀ s t : State, step s = .next t → t.trace = s.trace ++ newOps s t

/-- R10, R11, R71, R90, R110: which operation can come from where: a read of TDO only from a session with capture, a
write of TMS only from a bit-bang byte in `Idle`, a write of TCK or TDI only from a byte, and a transport write never
of an empty block and never more than it offers. -/
def Obligations.WhereOperationsComeFrom : Prop :=
  ∀ s t : State, step s = .next t → ∀ op ∈ newOps s t,
    match op with
    | .readTdo _ => ∃ r, s.dstate = .inShift r true
    | .setLine .tms _ => s.dstate = .idle ∧ ∃ b rest k m d, s.input = .byte b :: rest ∧ Config.classify b = .bitBang k m d
    | .setLine _ _ => ∃ b rest, s.input = .byte b :: rest
    | .transportWrite xs c => xs ≠ [] ∧ c ≤ xs.length

/-- R38, R112, R117, D15: a step makes at most 32 pin operations and one transport write, of 1 to `MTU` bytes. -/
def Obligations.StepIsBounded : Prop :=
  ∀ s t : State, s.Inv → step s = .next t →
    pinOps (newOps s t) ≤ 32 ∧ (offeredWrites (newOps s t)).length ≤ 1 ∧
    ∀ w ∈ offeredWrites (newOps s t), 1 ≤ w.1.length ∧ w.1.length ≤ Config.mtu ∧ w.2 ≤ w.1.length

/-- R10, R22: no rule reads a latch: from other levels a step answers the same state but for the levels. -/
def Obligations.LatchesAreNeverRead : Prop :=
  ∀ (s t : State) (l : Levels), step s = .next t → ∃ l', step (s.withLevels l) = .next (t.withLevels l')

/-- R71, R90, R95: TMS changes only by a bit-bang byte met in `Idle`, so it holds through a session. -/
def Obligations.OnlyBitBangChangesTms : Prop :=
  ∀ s t : State, step s = .next t → t.halted = false → t.tms ≠ s.tms →
    s.dstate = .idle ∧ ∃ b rest k m d, s.input = .byte b :: rest ∧ Config.classify b = .bitBang k m d

/-- An instruction run directly outside its context is refused by name (the model's choice, log entry 10). -/
def Obligations.OutsideItsContextRefused : Prop :=
  ∀ (i : Instr) (s : State), s.halted = false → s.dstate.context ≠ i.context →
    exec i s = .refused (.wrongContext i.row.mnemonic)

/-! ## BB -/

/-- R71: BB drives TMS, TDI and TCK to its bits in that order, always all three, and does nothing else. -/
def Obligations.BitBangResult : Prop :=
  ∀ (k m d : Bool) (x : BitVec 4) (s : State), s.Undisturbed → s.dstate = .idle →
    exec (.bb k m d x) s = .next { s with
      tms := m, tdi := d, tck := k,
      trace := s.trace ++ [.setLine .tms m, .setLine .tdi d, .setLine .tck k] }

/-- R72: BB makes no edge where its TCK bit is the present level, else exactly one, with TMS and TDI in place. -/
def Obligations.BitBangEdges : Prop :=
  ∀ (k m d : Bool) (x : BitVec 4) (s : State), s.Undisturbed → s.dstate = .idle →
    ∃ t, exec (.bb k m d x) s = .next t ∧
      edges s.levels (newOps s t) = if k = s.tck then [] else [⟨k, m, d⟩]

/-- R73: after BB the levels are exactly its bits; the same byte again leaves them and makes no edge. -/
def Obligations.BitBangLevelsAndIdempotence : Prop :=
  ∀ (k m d : Bool) (x : BitVec 4) (s : State), s.Undisturbed → s.dstate = .idle →
    ∃ t u, exec (.bb k m d x) s = .next t ∧ t.levels = ⟨k, m, d⟩ ∧
      exec (.bb k m d x) t = .next u ∧ u.levels = t.levels ∧ edges t.levels (newOps t u) = []

/-- R60 (c): the ignored bits have no effect, in any state. -/
def Obligations.IgnoredBitsDoNothing : Prop :=
  ∀ (k m d : Bool) (x y : BitVec 4) (s : State), exec (.bb k m d x) s = exec (.bb k m d y) s

/-- Frame of BB, from any state, GpioFail or not: everything but the lines, the trace, the halt and the model's
countdown and draws is unchanged, and where the core is not halted the draws too. -/
def Obligations.BitBangFrame : Prop :=
  ∀ (k m d : Bool) (x : BitVec 4) (s t : State), exec (.bb k m d x) s = .next t →
    t.dstate = s.dstate ∧ t.acc = s.acc ∧ t.bitIdx = s.bitIdx ∧ t.reply = s.reply ∧ t.overrun = s.overrun ∧
    t.input = s.input ∧ t.tdo = s.tdo ∧ t.accepts = s.accepts ∧ (t.halted = false → t.draws = s.draws)

/-! ## SHIFT, SHIFTC, SNOP -/

/-- R74: a header opens a session and does nothing else. That a header with a count outside 1 to `NMAX`, which no byte
encodes, opens that session too is the model's choice, log entry 23. -/
def Obligations.HeaderOpensASession : Prop :=
  ∀ (n : Nat) (s : State), s.Undisturbed → s.dstate = .idle →
    exec (.shift n) s = .next { s with dstate := .inShift n false } ∧
    exec (.shiftc n) s = .next { s with dstate := .inShift n true }

/-- R75: a malformed header does nothing; the byte after it is classified afresh in `Idle`. -/
def Obligations.MalformedHeaderDoesNothing : Prop :=
  ∀ (c : Bool) (s : State), s.Undisturbed → s.dstate = .idle → exec (.snop c) s = .next s ∧
    ∀ b : Byte, step (s.presentByte b) = exec (decodeIdle b) s

/-- Frame of SNOP, SHIFT and SHIFTC, from any state, GpioFail or not (where it may cut them is the model's choice, log
entry 8), and at any count (outside 1 to `NMAX` the model's choice, log entry 23). -/
def Obligations.HeaderFrame : Prop :=
  ∀ (i : Instr) (s t : State), (∃ c n, i = .snop c ∨ i = .shift n ∨ i = .shiftc n) → exec i s = .next t →
    t.acc = s.acc ∧ t.bitIdx = s.bitIdx ∧ t.reply = s.reply ∧ t.overrun = s.overrun ∧ t.trace = s.trace ∧
    t.input = s.input ∧ t.tdo = s.tdo ∧ t.accepts = s.accepts ∧
    (t.halted = false → t.levels = s.levels ∧ t.draws = s.draws) ∧ (i.command = some .malformed → t.dstate = s.dstate)

/-! ## DATA -/

/-- R99, R90, R95: a data byte without capture: 24 line writes, no read, nothing appended, one byte less to come. The
model's choice: a session with no byte to come, which I1 excludes, closes, log entry 11. -/
def Obligations.DataWithoutCapture : Prop :=
  ∀ (b : Byte) (r : Nat) (s : State), s.Undisturbed → s.dstate = .inShift r false →
    exec (.data b) s = .next { s with
      tdi := b.getLsbD 7, tck := false, bitIdx := 0,
      trace := s.trace ++ dataOps false b (fun _ => false),
      dstate := if r - 1 = 0 then .idle else .inShift (r - 1) false }

/-- R90: a data byte with capture and room in the Reply Buffer. The model's choices: where the answers come from, and that
eight of them are used up (`tdo`, `draws`), log entry 5; a session with no byte to come, which I1 excludes, log entry 11;
a buffer of more than `MTU` bytes, which I3 excludes, log entry 17. -/
def Obligations.DataWithCapture : Prop :=
  ∀ (b : Byte) (r : Nat) (s : State), s.Undisturbed → s.dstate = .inShift r true → s.reply.length ≠ Config.mtu →
    exec (.data b) s = .next { s with
      tdi := b.getLsbD 7, tck := false, bitIdx := 0, acc := 0,
      reply := s.reply ++ [s.acc ||| packByte s.nextSamples],
      trace := s.trace ++ dataOps true b s.tdoAnswer,
      tdo := s.tdo.drop 8, draws := s.draws + (8 - s.tdo.length),
      dstate := if r - 1 = 0 then .idle else .inShift (r - 1) true }

/-- R90, R111, R119: a data byte with capture when the buffer is full: the whole buffer is offered after the eight
transfers; what the transport takes leaves, and the new byte is appended, or lost where it took nothing; the step goes
on. The model's choices: the count taken is the head of `accepts` cut to the length, which is then used up, log entry 6;
eight answers of `tdo` are used up, log entry 5; a session with no byte to come, which I1 excludes, log entry 11. -/
def Obligations.DataWithAFullBuffer : Prop :=
  ∀ (b : Byte) (r : Nat) (s : State), s.Undisturbed → s.dstate = .inShift r true → s.reply.length = Config.mtu →
    ∃ (c : Nat) (t : State), exec (.data b) s = .next t ∧ c ≤ Config.mtu ∧
      (∀ a rest, s.accepts = a :: rest → c = min a Config.mtu) ∧ t.accepts = s.accepts.drop 1 ∧
      newOps s t = dataOps true b s.tdoAnswer ++ [.transportWrite s.reply c] ∧
      (c = 0 → t.reply = s.reply ∧ t.overrun = true) ∧
      (0 < c → t.reply = s.reply.drop c ++ [s.acc ||| packByte s.nextSamples] ∧ t.overrun = s.overrun) ∧
      t.levels = ⟨false, s.tms, b.getLsbD 7⟩ ∧ t.acc = 0 ∧ t.bitIdx = 0 ∧ t.tdo = s.tdo.drop 8 ∧
      t.input = s.input ∧ t.Undisturbed ∧
      t.dstate = if r - 1 = 0 then .idle else .inShift (r - 1) true

/-- R91: the trace of a data byte: eight bit transfers in order, then a transport write only where the buffer was full;
24 line writes, and 8 reads with capture, none without. -/
def Obligations.DataTrace : Prop :=
  ∀ (b : Byte) (r : Nat) (c : Bool) (s : State), s.Undisturbed → s.dstate = .inShift r c →
    ∃ (t : State) (tail : List Op), exec (.data b) s = .next t ∧
      newOps s t = ((List.range 8).flatMap fun i =>
        [.setLine .tdi (b.getLsbD i), .setLine .tck true, .setLine .tck false] ++
          if c then [.readTdo (s.tdoAnswer i)] else []) ++ tail ∧
      (tail = [] ∨ c = true ∧ s.reply.length = Config.mtu ∧ ∃ n, tail = [.transportWrite s.reply n]) ∧
      (tdoReads (newOps s t)).length = (if c then 8 else 0) ∧
      pinOps (newOps s t) = 24 + (if c then 8 else 0)

/-- R92: the reply byte appended by a data byte (one that is not lost, R119): its bit i is the answer of read i,
whatever the byte shifted out. -/
def Obligations.ReplyByteIsTheSamples : Prop :=
  ∀ (b : Byte) (r : Nat) (s t : State), s.Undisturbed → s.dstate = .inShift r true → s.acc = 0 →
    exec (.data b) s = .next t → (s.reply.length = Config.mtu → .transportWrite s.reply 0 ∉ newOps s t) →
    ∃ (kept : List Byte) (v : Byte), t.reply = kept ++ [v] ∧ kept <:+ s.reply ∧
      tdoReads (newOps s t) = (List.range 8).map s.tdoAnswer ∧
      (∀ i, i < 8 → v.getLsbD i = s.tdoAnswer i) ∧
      v.toNat = ((List.range 8).map fun i => 2 ^ i * (s.tdoAnswer i).toNat).sum

/-- R95: after a data byte TDI is its bit 7 and TCK is low; the levels stay until the next data byte or bit-bang byte;
and TMS is, all through a session, what it was before the header. -/
def Obligations.LinesAfterAData : Prop :=
  (∀ (b : Byte) (r : Nat) (c : Bool) (s : State), s.Undisturbed → s.dstate = .inShift r c →
    ∃ t, exec (.data b) s = .next t ∧ t.levels = ⟨false, s.tms, b.getLsbD 7⟩) ∧
  (∀ (s t : State) (e : Event) (rest : List Event), s.Undisturbed → s.input = e :: rest → step s = .next t →
    t.levels ≠ s.levels →
    e = .gpioFail ∨ ∃ b, e = .byte b ∧ ((∃ r c, s.dstate = .inShift r c) ∨
      (s.dstate = .idle ∧ ∃ k m d, Config.classify b = .bitBang k m d))) ∧
  (∀ (n : Nat) (c : Bool) (evs : List Event) (s t : State), countOk n = true → s.Undisturbed → s.dstate = .idle →
    noGpioFail evs = true → byteCount evs ≤ n →
    feed (.byte (encode (if c then .shiftc n else .shift n)) :: evs) s = .next t → t.tms = s.tms)

/-- R98: a data byte met with TCK high makes no rising edge in transfer 0, only the falling one, and a full pulse in
each of the others: 7 rising edges for 8 TDI bits. Met with TCK low it makes 8. -/
def Obligations.TckHighLosesAnEdge : Prop :=
  ∀ (b : Byte) (r : Nat) (c : Bool) (s : State), s.Undisturbed → s.dstate = .inShift r c →
    ∃ t, exec (.data b) s = .next t ∧ risingEdges s.levels (newOps s t) = (if s.tck then 7 else 8) ∧
      edges s.levels (newOps s t) =
        (if s.tck then [] else [⟨true, s.tms, b.getLsbD 0⟩]) ++ ⟨false, s.tms, b.getLsbD 0⟩ ::
          (List.range 7).flatMap fun i => [⟨true, s.tms, b.getLsbD (i + 1)⟩, ⟨false, s.tms, b.getLsbD (i + 1)⟩]

/-- Frame of DATA, from any state, GpioFail or not. -/
def Obligations.DataFrame : Prop :=
  ∀ (b : Byte) (s t : State), exec (.data b) s = .next t →
    t.input = s.input ∧ (t.halted = false → t.tms = s.tms) ∧
    (s.reply.length ≠ Config.mtu → t.overrun = s.overrun ∧ t.accepts = s.accepts ∧ s.reply <+: t.reply) ∧
    (∀ r, s.dstate = .inShift r false →
      t.acc = s.acc ∧ t.reply = s.reply ∧ t.overrun = s.overrun ∧ t.tdo = s.tdo ∧ t.accepts = s.accepts ∧
      (t.halted = false → t.draws = s.draws))

/-! ## The Reply Buffer and the transport -/

/-- R112: `Flush`: nothing where the buffer is empty, else one write of all of it, of 1 to `MTU` bytes; the bytes taken
leave, the others stay at the head. The model's choices: the count taken is the head of `accepts` cut to the length, which
is then used up, log entry 6; a count not settled is drawn (`draws`), log entry 5. -/
def Obligations.FlushRule : Prop :=
  ∀ s : State, s.Undisturbed →
    (s.reply = [] → flush s = s) ∧
    (s.reply ≠ [] → ∃ c, c ≤ s.reply.length ∧ (∀ a rest, s.accepts = a :: rest → c = min a s.reply.length) ∧
      flush s = { s with
        reply := s.reply.drop c, trace := s.trace ++ [.transportWrite s.reply c],
        accepts := s.accepts.drop 1, draws := s.draws + (1 - s.accepts.length) }) ∧
    (s.Inv → ∀ w ∈ offeredWrites (newOps s (flush s)), 1 ≤ w.1.length ∧ w.1.length ≤ Config.mtu)

/-- R111: `ReplyAppend`: a full buffer is flushed first; if it is then still full the byte is discarded and `overrun`
set, else the byte is appended. -/
def Obligations.ReplyAppendRule : Prop :=
  ∀ (v : Byte) (s : State), s.Undisturbed →
    (s.reply.length ≠ Config.mtu → replyAppend v s = { s with reply := s.reply ++ [v] }) ∧
    (s.reply.length = Config.mtu → replyAppend v s =
      if (flush s).reply.length = Config.mtu then { flush s with overrun := true }
      else { flush s with reply := (flush s).reply ++ [v] })

/-- R113: `EOP` is a flush, or nothing when halted; it touches neither `dstate`, nor `acc`, nor the lines, nor the
flags. -/
def Obligations.EndOfPacketFlushes : Prop :=
  ∀ (s : State) (rest : List Event), s.input = .eop :: rest →
    (s.halted = true → step s = .next (s.setInput rest)) ∧
    (s.Undisturbed → step s = .next (flush (s.setInput rest)) ∧
      (flush (s.setInput rest)).dstate = s.dstate ∧ (flush (s.setInput rest)).acc = s.acc ∧
      (flush (s.setInput rest)).levels = s.levels ∧ (flush (s.setInput rest)).halted = s.halted ∧
      (flush (s.setInput rest)).overrun = s.overrun)

/-- R36, R113: frame of `EOP`, from any state, GpioFail or not: a packet boundary does not touch the decoder. -/
def Obligations.EndOfPacketFrame : Prop :=
  ∀ (s t : State) (rest : List Event), s.input = .eop :: rest → step s = .next t →
    t.dstate = s.dstate ∧ t.acc = s.acc ∧ t.bitIdx = s.bitIdx ∧ t.overrun = s.overrun ∧ t.tdo = s.tdo ∧
    t.reply <:+ s.reply ∧ (t.halted = false → t.levels = s.levels)

/-- R118: what a write did not take stays at the head, in order, and is offered again by the next flush, ahead of the
bytes appended in between. -/
def Obligations.RefusedBytesAreOfferedAgain : Prop :=
  ∀ s : State, s.Undisturbed → s.reply ≠ [] → ∃ c, newOps s (flush s) = [.transportWrite s.reply c] ∧
    (flush s).reply = s.reply.drop c ∧
    ∀ (u : State) (newer : List Byte), u.Undisturbed → u.reply = (flush s).reply ++ newer → u.reply ≠ [] →
      ∃ c', newOps u (flush u) = [.transportWrite (s.reply.drop c ++ newer) c'] ∧
        (flush u).reply = (s.reply.drop c ++ newer).drop c'

/-- R119, R136: `overrun` is set exactly by a data byte with capture that meets a full buffer whose flush the transport
refuses altogether; an `EOP` whose flush is refused sets nothing. That such a byte sets it GpioFail coming or not, since no
failure point follows the write in its step (R134, R140), is the model's choice, log entry 8. -/
def Obligations.OverrunOnlyByRefusal : Prop :=
  ∀ s t : State, step s = .next t → s.overrun = false →
    (t.overrun = true → ∃ b rest r, s.input = .byte b :: rest ∧ s.dstate = .inShift r true ∧
      s.reply.length = Config.mtu ∧ .transportWrite s.reply 0 ∈ newOps s t) ∧
    (.transportWrite s.reply 0 ∈ newOps s t → s.reply.length = Config.mtu →
      (∃ b rest, s.input = .byte b :: rest) → t.overrun = true)

/-- R140, R134: a step meets one error at most, but for a failed write and then the overrun of the same `ReplyAppend`: a
GpioFail wins over everything, so a step that halts has written nothing, lost no byte and moved none of `reply` and
`dstate`; a step that sets `overrun` has made one write, of which nothing was taken, and is not halted. Where GpioFail may
arrive is the model's choice, log entry 8. -/
def Obligations.AStepMeetsOneError : Prop :=
  ∀ s t : State, step s = .next t → s.halted = false →
    (t.halted = true → offeredWrites (newOps s t) = [] ∧ t.overrun = s.overrun ∧ t.reply = s.reply ∧
      t.dstate = s.dstate) ∧
    (t.overrun = true → s.overrun = false → t.halted = false ∧ offeredWrites (newOps s t) = [(s.reply, 0)])

/-- R120: the law of the reply stream is kept by every step: while neither halted nor overrun, what the transport took
followed by what is queued is every captured byte, in order. -/
def Obligations.ReplyStreamLosesNothing : Prop :=
  ∀ s t : State, s.Inv → s.ReplyLaw → step s = .next t → t.ReplyLaw

/-- R115, R121: a packet of at most `RXMAX` bytes met with an empty buffer, and a transport that takes everything: after
`EOP` the buffer is empty, and the packet caused one write, of exactly the bytes captured in it, or none. -/
def Obligations.AcceptingTransportDrainsAPacket : Prop :=
  ∀ (bs : List Byte) (s t : State), bs.length ≤ Config.rxmax → s.Undisturbed → s.Inv → s.reply = [] →
    feed (packetEvents bs) s = .next t → acceptsAll (newOps s t) = true →
    t.reply = [] ∧ t.overrun = s.overrun ∧
    offeredWrites (newOps s t) =
      if packBytes (tdoReads (newOps s t)) = [] then []
      else [(packBytes (tdoReads (newOps s t)), (packBytes (tdoReads (newOps s t))).length)]

/-! ## Sessions -/

/-- R93, R94, R36: a session opened by a header of count `n` takes exactly the next `n` bytes as data, whatever they are
and wherever the packets end, and is then `Idle`; with capture it appends one reply byte for each, without none. -/
def Obligations.SessionTakesExactlyItsCount : Prop :=
  ∀ (n : Nat) (c : Bool) (evs : List Event) (s : State), countOk n = true → s.Undisturbed → s.dstate = .idle →
    noGpioFail evs = true → byteCount evs ≤ n →
    ∃ t, feed (.byte (encode (if c then .shiftc n else .shift n)) :: evs) s = .next t ∧
      t.dstate = (if byteCount evs = n then .idle else .inShift (n - byteCount evs) c) ∧
      (tdoReads (newOps s t)).length = (if c then 8 * byteCount evs else 0) ∧
      (t.overrun = false ∨ c = false → (replyStream t.trace ++ t.reply).length =
        (replyStream s.trace ++ s.reply).length + if c then byteCount evs else 0)

/-- R96: with TDI wired to TDO, the bytes of a session come back unchanged and in order. -/
def Obligations.LoopBackReturnsTheBytes : Prop :=
  ∀ (bs : List Byte) (r : Nat) (s t : State), s.Undisturbed → s.Inv → s.dstate = .inShift r true → bs.length ≤ r →
    feed (bs.map .byte) s = .next t → loopBack s.tdi (newOps s t) = true →
    packBytes (tdoReads (newOps s t)) = bs ∧
    (s.reply.length + bs.length ≤ Config.mtu → t.reply = s.reply ++ bs)

/-! ## Runs -/

/-- R154, R114: there is no terminal state: from every state a run can be ended, with an `EOP` step that comes after no
more than the pending events, a packet read and a packet's bytes, and the machine goes on from there. That a read is a
step is the model's choice, log entry 7. -/
def Obligations.EveryRunReachesAnEnd : Prop :=
  ∀ s : State, ∃ (k : Nat) (t u : State),
    k ≤ s.input.length + 1 + Config.rxmax ∧ FiniteRun k s t ∧ step t = .next u

/-- R154, R120: a run that is clean at its end has delivered or still queues every byte captured, in order; one that is
complete as well has delivered them all. The bytes captured are read off the trace the model keeps, log entry 12. -/
def Obligations.CompleteRunDeliversEverything : Prop :=
  ∀ (k : Nat) (s t : State), s.Inv → s.ReplyLaw →
    (CleanRun k s t → replyStream t.trace ++ t.reply = packBytes (tdoReads t.trace)) ∧
    (CompleteRun k s t → replyStream t.trace = packBytes (tdoReads t.trace) ∧
      (tdoReads t.trace).length = 8 * (replyStream t.trace).length ∧ t.dstate = .idle)
end

