-- ==== Sys2Proof/Laws/State.lean ====
section
/-! SUPPORT. What each plain update of the state does to each field. -/

namespace Sys2Proof.Machine

section fields_State_raiseHalt
@[simp] theorem State.raiseHalt_tck (s : State) : (s.raiseHalt).tck = Config.failLevel s.draws .tck := rfl
@[simp] theorem State.raiseHalt_tms (s : State) : (s.raiseHalt).tms = Config.failLevel s.draws .tms := rfl
@[simp] theorem State.raiseHalt_tdi (s : State) : (s.raiseHalt).tdi = Config.failLevel s.draws .tdi := rfl
@[simp] theorem State.raiseHalt_dstate (s : State) : (s.raiseHalt).dstate = s.dstate := rfl
@[simp] theorem State.raiseHalt_acc (s : State) : (s.raiseHalt).acc = s.acc := rfl
@[simp] theorem State.raiseHalt_bitIdx (s : State) : (s.raiseHalt).bitIdx = s.bitIdx := rfl
@[simp] theorem State.raiseHalt_reply (s : State) : (s.raiseHalt).reply = s.reply := rfl
@[simp] theorem State.raiseHalt_halted (s : State) : (s.raiseHalt).halted = true := rfl
@[simp] theorem State.raiseHalt_overrun (s : State) : (s.raiseHalt).overrun = s.overrun := rfl
@[simp] theorem State.raiseHalt_trace (s : State) : (s.raiseHalt).trace = s.trace := rfl
@[simp] theorem State.raiseHalt_input (s : State) : (s.raiseHalt).input = s.input := rfl
@[simp] theorem State.raiseHalt_tdo (s : State) : (s.raiseHalt).tdo = s.tdo := rfl
@[simp] theorem State.raiseHalt_accepts (s : State) : (s.raiseHalt).accepts = s.accepts := rfl
@[simp] theorem State.raiseHalt_gpioFail (s : State) : (s.raiseHalt).gpioFail = none := rfl
@[simp] theorem State.raiseHalt_draws (s : State) : (s.raiseHalt).draws = s.draws + 1 := rfl
end fields_State_raiseHalt

section fields_State_setOverrun
@[simp] theorem State.setOverrun_tck (s : State) : (s.setOverrun).tck = s.tck := rfl
@[simp] theorem State.setOverrun_tms (s : State) : (s.setOverrun).tms = s.tms := rfl
@[simp] theorem State.setOverrun_tdi (s : State) : (s.setOverrun).tdi = s.tdi := rfl
@[simp] theorem State.setOverrun_dstate (s : State) : (s.setOverrun).dstate = s.dstate := rfl
@[simp] theorem State.setOverrun_acc (s : State) : (s.setOverrun).acc = s.acc := rfl
@[simp] theorem State.setOverrun_bitIdx (s : State) : (s.setOverrun).bitIdx = s.bitIdx := rfl
@[simp] theorem State.setOverrun_reply (s : State) : (s.setOverrun).reply = s.reply := rfl
@[simp] theorem State.setOverrun_halted (s : State) : (s.setOverrun).halted = s.halted := rfl
@[simp] theorem State.setOverrun_overrun (s : State) : (s.setOverrun).overrun = true := rfl
@[simp] theorem State.setOverrun_trace (s : State) : (s.setOverrun).trace = s.trace := rfl
@[simp] theorem State.setOverrun_input (s : State) : (s.setOverrun).input = s.input := rfl
@[simp] theorem State.setOverrun_tdo (s : State) : (s.setOverrun).tdo = s.tdo := rfl
@[simp] theorem State.setOverrun_accepts (s : State) : (s.setOverrun).accepts = s.accepts := rfl
@[simp] theorem State.setOverrun_gpioFail (s : State) : (s.setOverrun).gpioFail = s.gpioFail := rfl
@[simp] theorem State.setOverrun_draws (s : State) : (s.setOverrun).draws = s.draws := rfl
end fields_State_setOverrun

section fields_State_noteRead
@[simp] theorem State.noteRead_tck (s : State) : (s.noteRead).tck = s.tck := rfl
@[simp] theorem State.noteRead_tms (s : State) : (s.noteRead).tms = s.tms := rfl
@[simp] theorem State.noteRead_tdi (s : State) : (s.noteRead).tdi = s.tdi := rfl
@[simp] theorem State.noteRead_dstate (s : State) : (s.noteRead).dstate = s.dstate := rfl
@[simp] theorem State.noteRead_acc (s : State) : (s.noteRead).acc = s.acc := rfl
@[simp] theorem State.noteRead_bitIdx (s : State) : (s.noteRead).bitIdx = s.bitIdx := rfl
@[simp] theorem State.noteRead_reply (s : State) : (s.noteRead).reply = s.reply := rfl
@[simp] theorem State.noteRead_halted (s : State) : (s.noteRead).halted = s.halted := rfl
@[simp] theorem State.noteRead_overrun (s : State) : (s.noteRead).overrun = s.overrun := rfl
@[simp] theorem State.noteRead_trace (s : State) : (s.noteRead).trace = s.trace ++ [.readTdo (s.tdoAnswer 0)] := rfl
@[simp] theorem State.noteRead_input (s : State) : (s.noteRead).input = s.input := rfl
@[simp] theorem State.noteRead_tdo (s : State) : (s.noteRead).tdo = s.tdo.drop 1 := rfl
@[simp] theorem State.noteRead_accepts (s : State) : (s.noteRead).accepts = s.accepts := rfl
@[simp] theorem State.noteRead_gpioFail (s : State) : (s.noteRead).gpioFail = s.gpioFail := rfl
@[simp] theorem State.noteRead_draws (s : State) : (s.noteRead).draws = s.draws + (1 - s.tdo.length) := rfl
end fields_State_noteRead

section fields_State_noteWrite
@[simp] theorem State.noteWrite_tck (xs : List Byte) (s : State) : (s.noteWrite xs).tck = s.tck := rfl
@[simp] theorem State.noteWrite_tms (xs : List Byte) (s : State) : (s.noteWrite xs).tms = s.tms := rfl
@[simp] theorem State.noteWrite_tdi (xs : List Byte) (s : State) : (s.noteWrite xs).tdi = s.tdi := rfl
@[simp] theorem State.noteWrite_dstate (xs : List Byte) (s : State) : (s.noteWrite xs).dstate = s.dstate := rfl
@[simp] theorem State.noteWrite_acc (xs : List Byte) (s : State) : (s.noteWrite xs).acc = s.acc := rfl
@[simp] theorem State.noteWrite_bitIdx (xs : List Byte) (s : State) : (s.noteWrite xs).bitIdx = s.bitIdx := rfl
@[simp] theorem State.noteWrite_reply (xs : List Byte) (s : State) : (s.noteWrite xs).reply = s.reply := rfl
@[simp] theorem State.noteWrite_halted (xs : List Byte) (s : State) : (s.noteWrite xs).halted = s.halted := rfl
@[simp] theorem State.noteWrite_overrun (xs : List Byte) (s : State) : (s.noteWrite xs).overrun = s.overrun := rfl
@[simp] theorem State.noteWrite_trace (xs : List Byte) (s : State) : (s.noteWrite xs).trace = s.trace ++ [.transportWrite xs (s.acceptAnswer xs.length)] := rfl
@[simp] theorem State.noteWrite_input (xs : List Byte) (s : State) : (s.noteWrite xs).input = s.input := rfl
@[simp] theorem State.noteWrite_tdo (xs : List Byte) (s : State) : (s.noteWrite xs).tdo = s.tdo := rfl
@[simp] theorem State.noteWrite_accepts (xs : List Byte) (s : State) : (s.noteWrite xs).accepts = s.accepts.drop 1 := rfl
@[simp] theorem State.noteWrite_gpioFail (xs : List Byte) (s : State) : (s.noteWrite xs).gpioFail = s.gpioFail := rfl
@[simp] theorem State.noteWrite_draws (xs : List Byte) (s : State) : (s.noteWrite xs).draws = s.draws + (1 - s.accepts.length) := rfl
end fields_State_noteWrite

section fields_State_dropReply
@[simp] theorem State.dropReply_tck (c : Nat) (s : State) : (s.dropReply c).tck = s.tck := rfl
@[simp] theorem State.dropReply_tms (c : Nat) (s : State) : (s.dropReply c).tms = s.tms := rfl
@[simp] theorem State.dropReply_tdi (c : Nat) (s : State) : (s.dropReply c).tdi = s.tdi := rfl
@[simp] theorem State.dropReply_dstate (c : Nat) (s : State) : (s.dropReply c).dstate = s.dstate := rfl
@[simp] theorem State.dropReply_acc (c : Nat) (s : State) : (s.dropReply c).acc = s.acc := rfl
@[simp] theorem State.dropReply_bitIdx (c : Nat) (s : State) : (s.dropReply c).bitIdx = s.bitIdx := rfl
@[simp] theorem State.dropReply_reply (c : Nat) (s : State) : (s.dropReply c).reply = s.reply.drop c := rfl
@[simp] theorem State.dropReply_halted (c : Nat) (s : State) : (s.dropReply c).halted = s.halted := rfl
@[simp] theorem State.dropReply_overrun (c : Nat) (s : State) : (s.dropReply c).overrun = s.overrun := rfl
@[simp] theorem State.dropReply_trace (c : Nat) (s : State) : (s.dropReply c).trace = s.trace := rfl
@[simp] theorem State.dropReply_input (c : Nat) (s : State) : (s.dropReply c).input = s.input := rfl
@[simp] theorem State.dropReply_tdo (c : Nat) (s : State) : (s.dropReply c).tdo = s.tdo := rfl
@[simp] theorem State.dropReply_accepts (c : Nat) (s : State) : (s.dropReply c).accepts = s.accepts := rfl
@[simp] theorem State.dropReply_gpioFail (c : Nat) (s : State) : (s.dropReply c).gpioFail = s.gpioFail := rfl
@[simp] theorem State.dropReply_draws (c : Nat) (s : State) : (s.dropReply c).draws = s.draws := rfl
end fields_State_dropReply

section fields_openSession
@[simp] theorem openSession_tck (n : Nat) (c : Bool) (s : State) : (openSession n c s).tck = s.tck := rfl
@[simp] theorem openSession_tms (n : Nat) (c : Bool) (s : State) : (openSession n c s).tms = s.tms := rfl
@[simp] theorem openSession_tdi (n : Nat) (c : Bool) (s : State) : (openSession n c s).tdi = s.tdi := rfl
@[simp] theorem openSession_dstate (n : Nat) (c : Bool) (s : State) : (openSession n c s).dstate = .inShift n c := rfl
@[simp] theorem openSession_acc (n : Nat) (c : Bool) (s : State) : (openSession n c s).acc = s.acc := rfl
@[simp] theorem openSession_bitIdx (n : Nat) (c : Bool) (s : State) : (openSession n c s).bitIdx = s.bitIdx := rfl
@[simp] theorem openSession_reply (n : Nat) (c : Bool) (s : State) : (openSession n c s).reply = s.reply := rfl
@[simp] theorem openSession_halted (n : Nat) (c : Bool) (s : State) : (openSession n c s).halted = s.halted := rfl
@[simp] theorem openSession_overrun (n : Nat) (c : Bool) (s : State) : (openSession n c s).overrun = s.overrun := rfl
@[simp] theorem openSession_trace (n : Nat) (c : Bool) (s : State) : (openSession n c s).trace = s.trace := rfl
@[simp] theorem openSession_input (n : Nat) (c : Bool) (s : State) : (openSession n c s).input = s.input := rfl
@[simp] theorem openSession_tdo (n : Nat) (c : Bool) (s : State) : (openSession n c s).tdo = s.tdo := rfl
@[simp] theorem openSession_accepts (n : Nat) (c : Bool) (s : State) : (openSession n c s).accepts = s.accepts := rfl
@[simp] theorem openSession_gpioFail (n : Nat) (c : Bool) (s : State) : (openSession n c s).gpioFail = s.gpioFail := rfl
@[simp] theorem openSession_draws (n : Nat) (c : Bool) (s : State) : (openSession n c s).draws = s.draws := rfl
end fields_openSession

section fields_State_setBitIdx
@[simp] theorem State.setBitIdx_tck (i : Nat) (s : State) : (s.setBitIdx i).tck = s.tck := rfl
@[simp] theorem State.setBitIdx_tms (i : Nat) (s : State) : (s.setBitIdx i).tms = s.tms := rfl
@[simp] theorem State.setBitIdx_tdi (i : Nat) (s : State) : (s.setBitIdx i).tdi = s.tdi := rfl
@[simp] theorem State.setBitIdx_dstate (i : Nat) (s : State) : (s.setBitIdx i).dstate = s.dstate := rfl
@[simp] theorem State.setBitIdx_acc (i : Nat) (s : State) : (s.setBitIdx i).acc = s.acc := rfl
@[simp] theorem State.setBitIdx_bitIdx (i : Nat) (s : State) : (s.setBitIdx i).bitIdx = BitVec.ofNat 3 i := rfl
@[simp] theorem State.setBitIdx_reply (i : Nat) (s : State) : (s.setBitIdx i).reply = s.reply := rfl
@[simp] theorem State.setBitIdx_halted (i : Nat) (s : State) : (s.setBitIdx i).halted = s.halted := rfl
@[simp] theorem State.setBitIdx_overrun (i : Nat) (s : State) : (s.setBitIdx i).overrun = s.overrun := rfl
@[simp] theorem State.setBitIdx_trace (i : Nat) (s : State) : (s.setBitIdx i).trace = s.trace := rfl
@[simp] theorem State.setBitIdx_input (i : Nat) (s : State) : (s.setBitIdx i).input = s.input := rfl
@[simp] theorem State.setBitIdx_tdo (i : Nat) (s : State) : (s.setBitIdx i).tdo = s.tdo := rfl
@[simp] theorem State.setBitIdx_accepts (i : Nat) (s : State) : (s.setBitIdx i).accepts = s.accepts := rfl
@[simp] theorem State.setBitIdx_gpioFail (i : Nat) (s : State) : (s.setBitIdx i).gpioFail = s.gpioFail := rfl
@[simp] theorem State.setBitIdx_draws (i : Nat) (s : State) : (s.setBitIdx i).draws = s.draws := rfl
end fields_State_setBitIdx

section fields_State_orSample
@[simp] theorem State.orSample_tck (t : Bool) (i : Nat) (s : State) : (s.orSample t i).tck = s.tck := rfl
@[simp] theorem State.orSample_tms (t : Bool) (i : Nat) (s : State) : (s.orSample t i).tms = s.tms := rfl
@[simp] theorem State.orSample_tdi (t : Bool) (i : Nat) (s : State) : (s.orSample t i).tdi = s.tdi := rfl
@[simp] theorem State.orSample_dstate (t : Bool) (i : Nat) (s : State) : (s.orSample t i).dstate = s.dstate := rfl
@[simp] theorem State.orSample_acc (t : Bool) (i : Nat) (s : State) : (s.orSample t i).acc = s.acc ||| sampleAt t i := rfl
@[simp] theorem State.orSample_bitIdx (t : Bool) (i : Nat) (s : State) : (s.orSample t i).bitIdx = s.bitIdx := rfl
@[simp] theorem State.orSample_reply (t : Bool) (i : Nat) (s : State) : (s.orSample t i).reply = s.reply := rfl
@[simp] theorem State.orSample_halted (t : Bool) (i : Nat) (s : State) : (s.orSample t i).halted = s.halted := rfl
@[simp] theorem State.orSample_overrun (t : Bool) (i : Nat) (s : State) : (s.orSample t i).overrun = s.overrun := rfl
@[simp] theorem State.orSample_trace (t : Bool) (i : Nat) (s : State) : (s.orSample t i).trace = s.trace := rfl
@[simp] theorem State.orSample_input (t : Bool) (i : Nat) (s : State) : (s.orSample t i).input = s.input := rfl
@[simp] theorem State.orSample_tdo (t : Bool) (i : Nat) (s : State) : (s.orSample t i).tdo = s.tdo := rfl
@[simp] theorem State.orSample_accepts (t : Bool) (i : Nat) (s : State) : (s.orSample t i).accepts = s.accepts := rfl
@[simp] theorem State.orSample_gpioFail (t : Bool) (i : Nat) (s : State) : (s.orSample t i).gpioFail = s.gpioFail := rfl
@[simp] theorem State.orSample_draws (t : Bool) (i : Nat) (s : State) : (s.orSample t i).draws = s.draws := rfl
end fields_State_orSample

section fields_State_clearAcc
@[simp] theorem State.clearAcc_tck (s : State) : (s.clearAcc).tck = s.tck := rfl
@[simp] theorem State.clearAcc_tms (s : State) : (s.clearAcc).tms = s.tms := rfl
@[simp] theorem State.clearAcc_tdi (s : State) : (s.clearAcc).tdi = s.tdi := rfl
@[simp] theorem State.clearAcc_dstate (s : State) : (s.clearAcc).dstate = s.dstate := rfl
@[simp] theorem State.clearAcc_acc (s : State) : (s.clearAcc).acc = 0 := rfl
@[simp] theorem State.clearAcc_bitIdx (s : State) : (s.clearAcc).bitIdx = s.bitIdx := rfl
@[simp] theorem State.clearAcc_reply (s : State) : (s.clearAcc).reply = s.reply := rfl
@[simp] theorem State.clearAcc_halted (s : State) : (s.clearAcc).halted = s.halted := rfl
@[simp] theorem State.clearAcc_overrun (s : State) : (s.clearAcc).overrun = s.overrun := rfl
@[simp] theorem State.clearAcc_trace (s : State) : (s.clearAcc).trace = s.trace := rfl
@[simp] theorem State.clearAcc_input (s : State) : (s.clearAcc).input = s.input := rfl
@[simp] theorem State.clearAcc_tdo (s : State) : (s.clearAcc).tdo = s.tdo := rfl
@[simp] theorem State.clearAcc_accepts (s : State) : (s.clearAcc).accepts = s.accepts := rfl
@[simp] theorem State.clearAcc_gpioFail (s : State) : (s.clearAcc).gpioFail = s.gpioFail := rfl
@[simp] theorem State.clearAcc_draws (s : State) : (s.clearAcc).draws = s.draws := rfl
end fields_State_clearAcc

section fields_State_finishByte
@[simp] theorem State.finishByte_tck (r : Nat) (c : Bool) (s : State) : (s.finishByte r c).tck = s.tck := rfl
@[simp] theorem State.finishByte_tms (r : Nat) (c : Bool) (s : State) : (s.finishByte r c).tms = s.tms := rfl
@[simp] theorem State.finishByte_tdi (r : Nat) (c : Bool) (s : State) : (s.finishByte r c).tdi = s.tdi := rfl
@[simp] theorem State.finishByte_dstate (r : Nat) (c : Bool) (s : State) : (s.finishByte r c).dstate = DState.afterByte r c := rfl
@[simp] theorem State.finishByte_acc (r : Nat) (c : Bool) (s : State) : (s.finishByte r c).acc = s.acc := rfl
@[simp] theorem State.finishByte_bitIdx (r : Nat) (c : Bool) (s : State) : (s.finishByte r c).bitIdx = 0 := rfl
@[simp] theorem State.finishByte_reply (r : Nat) (c : Bool) (s : State) : (s.finishByte r c).reply = s.reply := rfl
@[simp] theorem State.finishByte_halted (r : Nat) (c : Bool) (s : State) : (s.finishByte r c).halted = s.halted := rfl
@[simp] theorem State.finishByte_overrun (r : Nat) (c : Bool) (s : State) : (s.finishByte r c).overrun = s.overrun := rfl
@[simp] theorem State.finishByte_trace (r : Nat) (c : Bool) (s : State) : (s.finishByte r c).trace = s.trace := rfl
@[simp] theorem State.finishByte_input (r : Nat) (c : Bool) (s : State) : (s.finishByte r c).input = s.input := rfl
@[simp] theorem State.finishByte_tdo (r : Nat) (c : Bool) (s : State) : (s.finishByte r c).tdo = s.tdo := rfl
@[simp] theorem State.finishByte_accepts (r : Nat) (c : Bool) (s : State) : (s.finishByte r c).accepts = s.accepts := rfl
@[simp] theorem State.finishByte_gpioFail (r : Nat) (c : Bool) (s : State) : (s.finishByte r c).gpioFail = s.gpioFail := rfl
@[simp] theorem State.finishByte_draws (r : Nat) (c : Bool) (s : State) : (s.finishByte r c).draws = s.draws := rfl
end fields_State_finishByte

section fields_State_presentByte
@[simp] theorem State.presentByte_tck (b : Byte) (s : State) : (s.presentByte b).tck = s.tck := rfl
@[simp] theorem State.presentByte_tms (b : Byte) (s : State) : (s.presentByte b).tms = s.tms := rfl
@[simp] theorem State.presentByte_tdi (b : Byte) (s : State) : (s.presentByte b).tdi = s.tdi := rfl
@[simp] theorem State.presentByte_dstate (b : Byte) (s : State) : (s.presentByte b).dstate = s.dstate := rfl
@[simp] theorem State.presentByte_acc (b : Byte) (s : State) : (s.presentByte b).acc = s.acc := rfl
@[simp] theorem State.presentByte_bitIdx (b : Byte) (s : State) : (s.presentByte b).bitIdx = s.bitIdx := rfl
@[simp] theorem State.presentByte_reply (b : Byte) (s : State) : (s.presentByte b).reply = s.reply := rfl
@[simp] theorem State.presentByte_halted (b : Byte) (s : State) : (s.presentByte b).halted = s.halted := rfl
@[simp] theorem State.presentByte_overrun (b : Byte) (s : State) : (s.presentByte b).overrun = s.overrun := rfl
@[simp] theorem State.presentByte_trace (b : Byte) (s : State) : (s.presentByte b).trace = s.trace := rfl
@[simp] theorem State.presentByte_input (b : Byte) (s : State) : (s.presentByte b).input = .byte b :: s.input := rfl
@[simp] theorem State.presentByte_tdo (b : Byte) (s : State) : (s.presentByte b).tdo = s.tdo := rfl
@[simp] theorem State.presentByte_accepts (b : Byte) (s : State) : (s.presentByte b).accepts = s.accepts := rfl
@[simp] theorem State.presentByte_gpioFail (b : Byte) (s : State) : (s.presentByte b).gpioFail = s.gpioFail := rfl
@[simp] theorem State.presentByte_draws (b : Byte) (s : State) : (s.presentByte b).draws = s.draws := rfl
end fields_State_presentByte

section fields_State_setInput
@[simp] theorem State.setInput_tck (es : List Event) (s : State) : (s.setInput es).tck = s.tck := rfl
@[simp] theorem State.setInput_tms (es : List Event) (s : State) : (s.setInput es).tms = s.tms := rfl
@[simp] theorem State.setInput_tdi (es : List Event) (s : State) : (s.setInput es).tdi = s.tdi := rfl
@[simp] theorem State.setInput_dstate (es : List Event) (s : State) : (s.setInput es).dstate = s.dstate := rfl
@[simp] theorem State.setInput_acc (es : List Event) (s : State) : (s.setInput es).acc = s.acc := rfl
@[simp] theorem State.setInput_bitIdx (es : List Event) (s : State) : (s.setInput es).bitIdx = s.bitIdx := rfl
@[simp] theorem State.setInput_reply (es : List Event) (s : State) : (s.setInput es).reply = s.reply := rfl
@[simp] theorem State.setInput_halted (es : List Event) (s : State) : (s.setInput es).halted = s.halted := rfl
@[simp] theorem State.setInput_overrun (es : List Event) (s : State) : (s.setInput es).overrun = s.overrun := rfl
@[simp] theorem State.setInput_trace (es : List Event) (s : State) : (s.setInput es).trace = s.trace := rfl
@[simp] theorem State.setInput_input (es : List Event) (s : State) : (s.setInput es).input = es := rfl
@[simp] theorem State.setInput_tdo (es : List Event) (s : State) : (s.setInput es).tdo = s.tdo := rfl
@[simp] theorem State.setInput_accepts (es : List Event) (s : State) : (s.setInput es).accepts = s.accepts := rfl
@[simp] theorem State.setInput_gpioFail (es : List Event) (s : State) : (s.setInput es).gpioFail = s.gpioFail := rfl
@[simp] theorem State.setInput_draws (es : List Event) (s : State) : (s.setInput es).draws = s.draws := rfl
end fields_State_setInput

section fields_State_readPacket
@[simp] theorem State.readPacket_tck (s : State) : (s.readPacket).tck = s.tck := rfl
@[simp] theorem State.readPacket_tms (s : State) : (s.readPacket).tms = s.tms := rfl
@[simp] theorem State.readPacket_tdi (s : State) : (s.readPacket).tdi = s.tdi := rfl
@[simp] theorem State.readPacket_dstate (s : State) : (s.readPacket).dstate = s.dstate := rfl
@[simp] theorem State.readPacket_acc (s : State) : (s.readPacket).acc = s.acc := rfl
@[simp] theorem State.readPacket_bitIdx (s : State) : (s.readPacket).bitIdx = s.bitIdx := rfl
@[simp] theorem State.readPacket_reply (s : State) : (s.readPacket).reply = s.reply := rfl
@[simp] theorem State.readPacket_halted (s : State) : (s.readPacket).halted = s.halted := rfl
@[simp] theorem State.readPacket_overrun (s : State) : (s.readPacket).overrun = s.overrun := rfl
@[simp] theorem State.readPacket_trace (s : State) : (s.readPacket).trace = s.trace := rfl
@[simp] theorem State.readPacket_input (s : State) : (s.readPacket).input = packetEvents ((Config.packet s.draws).take Config.rxmax) := rfl
@[simp] theorem State.readPacket_tdo (s : State) : (s.readPacket).tdo = s.tdo := rfl
@[simp] theorem State.readPacket_accepts (s : State) : (s.readPacket).accepts = s.accepts := rfl
@[simp] theorem State.readPacket_gpioFail (s : State) : (s.readPacket).gpioFail = s.gpioFail.or (Config.gpioPlan s.draws) := rfl
@[simp] theorem State.readPacket_draws (s : State) : (s.readPacket).draws = s.draws + 1 := rfl
end fields_State_readPacket

section fields_State_withLevels
@[simp] theorem State.withLevels_tck (l : Levels) (s : State) : (s.withLevels l).tck = l.tck := rfl
@[simp] theorem State.withLevels_tms (l : Levels) (s : State) : (s.withLevels l).tms = l.tms := rfl
@[simp] theorem State.withLevels_tdi (l : Levels) (s : State) : (s.withLevels l).tdi = l.tdi := rfl
@[simp] theorem State.withLevels_dstate (l : Levels) (s : State) : (s.withLevels l).dstate = s.dstate := rfl
@[simp] theorem State.withLevels_acc (l : Levels) (s : State) : (s.withLevels l).acc = s.acc := rfl
@[simp] theorem State.withLevels_bitIdx (l : Levels) (s : State) : (s.withLevels l).bitIdx = s.bitIdx := rfl
@[simp] theorem State.withLevels_reply (l : Levels) (s : State) : (s.withLevels l).reply = s.reply := rfl
@[simp] theorem State.withLevels_halted (l : Levels) (s : State) : (s.withLevels l).halted = s.halted := rfl
@[simp] theorem State.withLevels_overrun (l : Levels) (s : State) : (s.withLevels l).overrun = s.overrun := rfl
@[simp] theorem State.withLevels_trace (l : Levels) (s : State) : (s.withLevels l).trace = s.trace := rfl
@[simp] theorem State.withLevels_input (l : Levels) (s : State) : (s.withLevels l).input = s.input := rfl
@[simp] theorem State.withLevels_tdo (l : Levels) (s : State) : (s.withLevels l).tdo = s.tdo := rfl
@[simp] theorem State.withLevels_accepts (l : Levels) (s : State) : (s.withLevels l).accepts = s.accepts := rfl
@[simp] theorem State.withLevels_gpioFail (l : Levels) (s : State) : (s.withLevels l).gpioFail = s.gpioFail := rfl
@[simp] theorem State.withLevels_draws (l : Levels) (s : State) : (s.withLevels l).draws = s.draws := rfl
end fields_State_withLevels

section fields_State_driveLine
@[simp] theorem State.driveLine_tck_tck (v : Bool) (s : State) : (s.driveLine .tck v).tck = v := rfl
@[simp] theorem State.driveLine_tms_tck (v : Bool) (s : State) : (s.driveLine .tms v).tck = s.tck := rfl
@[simp] theorem State.driveLine_tdi_tck (v : Bool) (s : State) : (s.driveLine .tdi v).tck = s.tck := rfl
@[simp] theorem State.driveLine_tck_tms (v : Bool) (s : State) : (s.driveLine .tck v).tms = s.tms := rfl
@[simp] theorem State.driveLine_tms_tms (v : Bool) (s : State) : (s.driveLine .tms v).tms = v := rfl
@[simp] theorem State.driveLine_tdi_tms (v : Bool) (s : State) : (s.driveLine .tdi v).tms = s.tms := rfl
@[simp] theorem State.driveLine_tck_tdi (v : Bool) (s : State) : (s.driveLine .tck v).tdi = s.tdi := rfl
@[simp] theorem State.driveLine_tms_tdi (v : Bool) (s : State) : (s.driveLine .tms v).tdi = s.tdi := rfl
@[simp] theorem State.driveLine_tdi_tdi (v : Bool) (s : State) : (s.driveLine .tdi v).tdi = v := rfl
@[simp] theorem State.driveLine_dstate (l : Line) (v : Bool) (s : State) : (s.driveLine l v).dstate = s.dstate := by
  cases l <;> rfl
@[simp] theorem State.driveLine_acc (l : Line) (v : Bool) (s : State) : (s.driveLine l v).acc = s.acc := by
  cases l <;> rfl
@[simp] theorem State.driveLine_bitIdx (l : Line) (v : Bool) (s : State) : (s.driveLine l v).bitIdx = s.bitIdx := by
  cases l <;> rfl
@[simp] theorem State.driveLine_reply (l : Line) (v : Bool) (s : State) : (s.driveLine l v).reply = s.reply := by
  cases l <;> rfl
@[simp] theorem State.driveLine_halted (l : Line) (v : Bool) (s : State) : (s.driveLine l v).halted = s.halted := by
  cases l <;> rfl
@[simp] theorem State.driveLine_overrun (l : Line) (v : Bool) (s : State) : (s.driveLine l v).overrun = s.overrun := by
  cases l <;> rfl
@[simp] theorem State.driveLine_trace (l : Line) (v : Bool) (s : State) :
    (s.driveLine l v).trace = s.trace ++ [.setLine l v] := by cases l <;> rfl
@[simp] theorem State.driveLine_input (l : Line) (v : Bool) (s : State) : (s.driveLine l v).input = s.input := by
  cases l <;> rfl
@[simp] theorem State.driveLine_tdo (l : Line) (v : Bool) (s : State) : (s.driveLine l v).tdo = s.tdo := by
  cases l <;> rfl
@[simp] theorem State.driveLine_accepts (l : Line) (v : Bool) (s : State) : (s.driveLine l v).accepts = s.accepts := by
  cases l <;> rfl
@[simp] theorem State.driveLine_gpioFail (l : Line) (v : Bool) (s : State) : (s.driveLine l v).gpioFail = s.gpioFail := by
  cases l <;> rfl
@[simp] theorem State.driveLine_draws (l : Line) (v : Bool) (s : State) : (s.driveLine l v).draws = s.draws := by
  cases l <;> rfl
end fields_State_driveLine

section fields_State_pushReply
@[simp] theorem State.pushReply_tck (v : Byte) (s : State) : (s.pushReply v).tck = s.tck := by
  unfold State.pushReply; split <;> rfl
@[simp] theorem State.pushReply_tms (v : Byte) (s : State) : (s.pushReply v).tms = s.tms := by
  unfold State.pushReply; split <;> rfl
@[simp] theorem State.pushReply_tdi (v : Byte) (s : State) : (s.pushReply v).tdi = s.tdi := by
  unfold State.pushReply; split <;> rfl
@[simp] theorem State.pushReply_dstate (v : Byte) (s : State) : (s.pushReply v).dstate = s.dstate := by
  unfold State.pushReply; split <;> rfl
@[simp] theorem State.pushReply_acc (v : Byte) (s : State) : (s.pushReply v).acc = s.acc := by
  unfold State.pushReply; split <;> rfl
@[simp] theorem State.pushReply_bitIdx (v : Byte) (s : State) : (s.pushReply v).bitIdx = s.bitIdx := by
  unfold State.pushReply; split <;> rfl
theorem State.pushReply_reply (v : Byte) (s : State) :
    (s.pushReply v).reply = if s.replyFull then s.reply else s.reply ++ [v] := by
  unfold State.pushReply; split <;> rfl
@[simp] theorem State.pushReply_halted (v : Byte) (s : State) : (s.pushReply v).halted = s.halted := by
  unfold State.pushReply; split <;> rfl
theorem State.pushReply_overrun (v : Byte) (s : State) :
    (s.pushReply v).overrun = (s.replyFull || s.overrun) := by
  unfold State.pushReply; split <;> simp_all
@[simp] theorem State.pushReply_trace (v : Byte) (s : State) : (s.pushReply v).trace = s.trace := by
  unfold State.pushReply; split <;> rfl
@[simp] theorem State.pushReply_input (v : Byte) (s : State) : (s.pushReply v).input = s.input := by
  unfold State.pushReply; split <;> rfl
@[simp] theorem State.pushReply_tdo (v : Byte) (s : State) : (s.pushReply v).tdo = s.tdo := by
  unfold State.pushReply; split <;> rfl
@[simp] theorem State.pushReply_accepts (v : Byte) (s : State) : (s.pushReply v).accepts = s.accepts := by
  unfold State.pushReply; split <;> rfl
@[simp] theorem State.pushReply_gpioFail (v : Byte) (s : State) : (s.pushReply v).gpioFail = s.gpioFail := by
  unfold State.pushReply; split <;> rfl
@[simp] theorem State.pushReply_draws (v : Byte) (s : State) : (s.pushReply v).draws = s.draws := by
  unfold State.pushReply; split <;> rfl
end fields_State_pushReply

end Sys2Proof.Machine
end

