-- ==== Sys2Proof/Laws/Ops.lean ====
section
/-! SUPPORT. What each shared operation can do, said once: on an undisturbed state (an equation), on a halted state
(nothing), and on any state (a relation that every primitive keeps). -/

namespace Sys2Proof.Machine

/-! ## The answers of the other agents -/

/-- One read uses up one answer. -/
theorem State.noteRead_tdoAnswer (s : State) (k : Nat) : s.noteRead.tdoAnswer k = s.tdoAnswer (k + 1) := by
  cases h : s.tdo with
  | nil => simp [State.tdoAnswer, h]; congr 1; omega
  | cons t ts => simp [State.tdoAnswer, h]

/-- The count taken never exceeds the length offered (R117). -/
theorem State.acceptAnswer_le (s : State) (len : Nat) : s.acceptAnswer len ≤ len := Nat.min_le_right _ _

/-! ## The failure point -/

@[simp] theorem State.failPoint_of_halted {s : State} (h : s.halted = true) : s.failPoint = s := by
  simp [State.failPoint, h]

theorem State.Undisturbed.failPoint_eq {s : State} (h : s.Undisturbed) : s.failPoint = s := by
  simp [State.failPoint, h.1, h.2]

/-- A failure point does nothing, raises GpioFail, or lets one point of the countdown pass. -/
theorem State.failPoint_cases (s : State) :
    s.failPoint = s ∨ (s.halted = false ∧ s.gpioFail = some 0 ∧ s.failPoint = s.raiseHalt) ∨
      ∃ n, s.halted = false ∧ s.gpioFail = some (n + 1) ∧ s.failPoint = { s with gpioFail := some n } := by
  unfold State.failPoint
  split
  · exact .inl rfl
  · rename_i h
    split
    · exact .inl rfl
    · exact .inr (.inl ⟨by simpa using h, ‹_›, rfl⟩)
    · exact .inr (.inr ⟨_, by simpa using h, ‹_›, rfl⟩)

/-- What a failure point never touches. -/
theorem State.failPoint_frame (s : State) :
    s.failPoint.dstate = s.dstate ∧ s.failPoint.acc = s.acc ∧ s.failPoint.bitIdx = s.bitIdx ∧
      s.failPoint.reply = s.reply ∧ s.failPoint.overrun = s.overrun ∧ s.failPoint.trace = s.trace ∧
      s.failPoint.input = s.input ∧ s.failPoint.tdo = s.tdo ∧ s.failPoint.accepts = s.accepts := by
  obtain h | ⟨-, -, h⟩ | ⟨n, -, -, h⟩ := s.failPoint_cases <;> simp [h]

/-- Where a failure point raises nothing, only the countdown can change. -/
theorem State.failPoint_of_not_halted {s : State} (h : s.failPoint.halted = false) :
    s.halted = false ∧ s.failPoint = { s with gpioFail := s.failPoint.gpioFail } := by
  obtain e | ⟨-, -, e⟩ | ⟨n, h0, -, e⟩ := s.failPoint_cases
  · rw [e] at h
    exact ⟨h, by rw [e]⟩
  · simp [e] at h
  · exact ⟨h0, by rw [e]⟩

/-! ## One primitive statement -/

@[simp] theorem act_of_halted {s : State} (f : State → State) (h : s.halted = true) : act f s = s := by
  simp [act, h]

theorem State.Undisturbed.act_eq {s : State} (h : s.Undisturbed) (f : State → State) : act f s = f s := by
  simp [act, h.failPoint_eq, h.1]

/-- A primitive statement is cut by GpioFail, or performed on a state that is not halted. -/
theorem act_cases (f : State → State) (s : State) :
    (s.failPoint.halted = true ∧ act f s = s.failPoint) ∨
      (s.failPoint.halted = false ∧ act f s = f s.failPoint) := by
  unfold act
  cases h : s.failPoint.halted <;> simp

/-- A relation between states that the shared operations can be shown to keep once and for all: it holds of every
state with itself, of successive pairs, and of a failure point. -/
structure Kept (R : State → State → Prop) : Prop where
  refl : ∀ s, R s s
  trans : ∀ {s t u}, R s t → R t u → R s u
  failPoint : ∀ s, R s s.failPoint

variable {R : State → State → Prop}

/-- A statement is kept by a relation that its own effect keeps. -/
theorem Kept.of_act (K : Kept R) {f : State → State} {s : State} (h : ∀ u, u.halted = false → R u (f u)) :
    R s (act f s) := by
  obtain ⟨-, e⟩ | ⟨h', e⟩ := act_cases f s <;> rw [e]
  · exact K.failPoint s
  · exact K.trans (K.failPoint s) (h _ h')

/-- `Flush` of a buffer that is not empty: one write of all of it, and the bytes taken leave (R112). -/
theorem flush_of_ne_nil {s : State} (hr : s.reply ≠ []) :
    flush s = (s.noteWrite s.reply).dropReply (s.acceptAnswer s.reply.length) := by
  rw [flush, if_pos (List.length_pos_of_ne_nil hr), transportWrite]

/-- `Flush` of an empty buffer does nothing (R112). -/
theorem flush_of_nil {s : State} (hr : s.reply = []) : flush s = s := by simp [flush, hr]

@[simp] theorem flush_halted (s : State) : (flush s).halted = s.halted := by
  by_cases hr : s.reply = []
  · rw [flush_of_nil hr]
  · rw [flush_of_ne_nil hr]; rfl

@[simp] theorem flush_gpioFail (s : State) : (flush s).gpioFail = s.gpioFail := by
  by_cases hr : s.reply = []
  · rw [flush_of_nil hr]
  · rw [flush_of_ne_nil hr]; rfl

/-- `ReplyAppend` where there is room (R111). -/
theorem replyAppend_of_room {s : State} (hr : s.replyFull = false) (v : Byte) : replyAppend v s = s.pushReply v := by
  simp [replyAppend, hr]

/-- `ReplyAppend` where the buffer is full: flush, then append or lose (R111, R119). -/
theorem replyAppend_of_full {s : State} (hr : s.replyFull = true) (v : Byte) :
    replyAppend v s = (flush s).pushReply v := by
  simp [replyAppend, hr]

theorem reply_ne_nil_of_replyFull {s : State} (hr : s.replyFull = true) : s.reply ≠ [] := by
  intro e
  simp [State.replyFull, e, Config.mtu] at hr

@[simp] theorem replyAppend_halted (v : Byte) (s : State) : (replyAppend v s).halted = s.halted := by
  unfold replyAppend
  split <;> simp

@[simp] theorem replyAppend_gpioFail (v : Byte) (s : State) : (replyAppend v s).gpioFail = s.gpioFail := by
  unfold replyAppend
  split <;> simp

theorem Kept.of_flush (K : Kept R) (hw : ∀ u : State, u.halted = false → u.reply ≠ [] → R u (u.noteWrite u.reply))
    (hd : ∀ (u : State) c, u.halted = false → R u (u.dropReply c)) {s : State} (h : s.halted = false) :
    R s (flush s) := by
  by_cases hr : s.reply = []
  · rw [flush_of_nil hr]; exact K.refl s
  · rw [flush_of_ne_nil hr]; exact K.trans (hw s h hr) (hd _ _ h)

theorem Kept.of_replyAppend (K : Kept R)
    (hw : ∀ u : State, u.halted = false → u.reply ≠ [] → R u (u.noteWrite u.reply))
    (hd : ∀ (u : State) c, u.halted = false → R u (u.dropReply c))
    (hp : ∀ (u : State) v, u.halted = false → R u (u.pushReply v)) (v : Byte) {s : State} (h : s.halted = false) :
    R s (replyAppend v s) := by
  unfold replyAppend
  split
  · exact K.trans (K.of_flush hw hd h) (hp _ v (by simpa using h))
  · exact hp s v h

/-! ## The same operations on an undisturbed state -/

theorem State.Undisturbed.setLine_eq {s : State} (h : s.Undisturbed) (l : Line) (v : Bool) :
    setLine l v s = s.driveLine l v := h.act_eq _

theorem State.Undisturbed.readTdo_eq {s : State} (h : s.Undisturbed) (k : Bool → State → State) :
    readTdo k s = k (s.tdoAnswer 0) s.noteRead := h.act_eq _

theorem State.Undisturbed.driveLine {s : State} (h : s.Undisturbed) (l : Line) (v : Bool) :
    (s.driveLine l v).Undisturbed := ⟨by simp [h.1], by simp [h.2]⟩

theorem State.Undisturbed.noteRead {s : State} (h : s.Undisturbed) : s.noteRead.Undisturbed := h

theorem State.Undisturbed.noteWrite {s : State} (h : s.Undisturbed) (xs : List Byte) :
    (s.noteWrite xs).Undisturbed := h

theorem State.Undisturbed.dropReply {s : State} (h : s.Undisturbed) (c : Nat) : (s.dropReply c).Undisturbed := h

theorem State.Undisturbed.pushReply {s : State} (h : s.Undisturbed) (v : Byte) :
    (s.pushReply v).Undisturbed := ⟨by simp [h.1], by simp [h.2]⟩

/-! ## The frame a command runs in -/

/-- What running a command in its context can answer. -/
theorem inContext_next {c : Context} {m : String} {body : State → State} {s t : State}
    (h : inContext c m body s = .next t) :
    (s.halted = true ∧ t = s) ∨ (s.halted = false ∧ s.dstate.context = c ∧ t = act body s) := by
  unfold inContext at h
  split at h
  · cases h; exact .inl ⟨‹_›, rfl⟩
  · split at h
    · cases h; exact .inr ⟨by simpa using ‹¬s.halted = true›, ‹_›, rfl⟩
    · cases h

@[simp] theorem inContext_of_halted {c : Context} {m : String} {body : State → State} {s : State}
    (h : s.halted = true) : inContext c m body s = .next s := by simp [inContext, h]

/-- In its context a command answers a next state. -/
theorem inContext_of_context {c : Context} {m : String} {body : State → State} {s : State}
    (h : s.dstate.context = c) : inContext c m body s = .next (act body s) := by
  unfold inContext
  split
  · rw [act_of_halted _ ‹_›]
  · rfl

theorem State.Undisturbed.inContext_eq {c : Context} {m : String} {body : State → State} {s : State}
    (h : s.Undisturbed) (hc : s.dstate.context = c) : inContext c m body s = .next (body s) := by
  rw [inContext_of_context hc, h.act_eq]

end Sys2Proof.Machine
end

