-- ==== Sys2Proof/Laws/Commands.lean ====
section
/-! SUPPORT. What each command can do, said once: on an undisturbed state (an equation), and on any state (a
relation that every primitive of the command keeps). -/

namespace Sys2Proof.Machine

variable {R : State → State → Prop}

/-! ## Bit-bang -/

theorem Kept.of_bitBang (K : Kept R) (hl : ∀ (u : State) l v, u.halted = false → R u (u.driveLine l v))
    (k m d : Bool) (s : State) : R s (bitBang k m d s) :=
  K.trans (K.trans (K.of_act fun u hu => hl u _ _ hu) (K.of_act fun u hu => hl u _ _ hu)) (K.of_act fun u hu => hl u _ _ hu)

theorem State.Undisturbed.bitBang_eq {s : State} (h : s.Undisturbed) (k m d : Bool) :
    bitBang k m d s = ((s.driveLine .tms m).driveLine .tdi d).driveLine .tck k := by
  rw [bitBang, h.setLine_eq, (h.driveLine _ _).setLine_eq, ((h.driveLine _ _).driveLine _ _).setLine_eq]

/-! ## The data byte -/

@[simp] theorem replyStage_false (s : State) : replyStage false s = s := rfl

@[simp] theorem replyStage_true (s : State) : replyStage true s = (replyAppend s.acc s).clearAcc := rfl

/-- The relation is kept by every primitive a data byte is made of. TMS is not among the lines written. -/
structure KeptByData (R : State → State → Prop) : Prop extends Kept R where
  drive : ∀ (u : State) l v, l ≠ .tms → u.halted = false → R u (u.driveLine l v)
  setBitIdx : ∀ (u : State) i, u.halted = false → R u (u.setBitIdx i)
  read : ∀ u : State, u.halted = false → R u u.noteRead
  orSample : ∀ (u : State) t i, u.halted = false → R u (u.orSample t i)
  write : ∀ u : State, u.halted = false → u.reply ≠ [] → R u (u.noteWrite u.reply)
  drop : ∀ (u : State) c, u.halted = false → R u (u.dropReply c)
  push : ∀ (u : State) v, u.halted = false → R u (u.pushReply v)
  clear : ∀ u : State, u.halted = false → R u u.clearAcc

theorem Kept.of_bitTransfer (K : Kept R)
    (hl : ∀ (u : State) l v, l ≠ .tms → u.halted = false → R u (u.driveLine l v))
    (hb : ∀ (u : State) i, u.halted = false → R u (u.setBitIdx i)) {c : Bool}
    (hr : c = true → ∀ u : State, u.halted = false → R u u.noteRead)
    (ho : c = true → ∀ (u : State) t i, u.halted = false → R u (u.orSample t i)) (b : Byte) (i : Nat) (s : State) :
    R s (bitTransfer c b i s) := by
  have pulse : R s (setLine .tck false (setLine .tck true (setLine .tdi (dataBit b i) (act (State.setBitIdx i) s)))) :=
    K.trans (K.trans (K.trans (K.of_act fun u hu => hb u i hu) (K.of_act fun u hu => hl u _ _ (by decide) hu))
      (K.of_act fun u hu => hl u _ _ (by decide) hu)) (K.of_act fun u hu => hl u _ _ (by decide) hu)
  unfold bitTransfer
  cases c with
  | false => exact pulse
  | true =>
    exact K.trans pulse (K.of_act fun u hu =>
      K.trans (hr rfl u hu) (K.of_act fun w hw => ho rfl w _ _ hw))

theorem Kept.of_foldl (K : Kept R) {f : State → Nat → State} (h : ∀ s i, R s (f s i)) (is : List Nat) (s : State) :
    R s (is.foldl f s) := by
  induction is generalizing s with
  | nil => exact K.refl s
  | cons i is ih => exact K.trans (h s i) (ih _)

theorem KeptByData.of_bitTransfers (K : KeptByData R) (c : Bool) (b : Byte) (s : State) :
    R s (bitTransfers c b s) :=
  K.toKept.of_foldl (fun s i => K.toKept.of_bitTransfer K.drive K.setBitIdx (fun _ => K.read) (fun _ => K.orSample) b i s) _ s

@[simp] theorem replyStage_halted (c : Bool) (s : State) : (replyStage c s).halted = s.halted := by
  cases c <;> simp

@[simp] theorem endByte_halted (r : Nat) (c : Bool) (s : State) : (endByte r c s).halted = s.halted := by
  simp [endByte]

theorem KeptByData.of_replyStage (K : KeptByData R) (c : Bool) {s : State} (h : s.halted = false) :
    R s (replyStage c s) := by
  cases c with
  | false => exact K.refl s
  | true => exact K.trans (K.toKept.of_replyAppend K.write K.drop K.push _ h) (K.clear _ (by simpa using h))

/-- A data byte, where the relation is kept by its last assignment too. -/
theorem KeptByData.of_shiftByte (K : KeptByData R) {r : Nat} {c : Bool}
    (hf : ∀ u : State, u.halted = false → R u (u.finishByte r c)) (b : Byte) (s : State) :
    R s (shiftByte r c b s) :=
  K.trans (K.of_bitTransfers c b s)
    (K.toKept.of_act fun u hu => K.trans (K.of_replyStage c hu) (hf _ (by simpa using hu)))

/-! ## The data byte on an undisturbed state -/

/-- The accumulator after the first `n` samples. -/
def orSamples (t : Nat → Bool) : Nat → Byte
  | 0 => 0
  | n + 1 => orSamples t n ||| sampleAt (t n) n

/-- The state after the first `n + 1` bit transfers of a data byte. -/
def State.afterTransfers (c : Bool) (b : Byte) (n : Nat) (s : State) : State :=
  { s with
    tdi := b.getLsbD n
    tck := false
    bitIdx := BitVec.ofNat 3 n
    acc := if c then s.acc ||| orSamples s.tdoAnswer (n + 1) else s.acc
    trace := s.trace ++ (List.range (n + 1)).flatMap fun i => transferOps c (b.getLsbD i) (s.tdoAnswer i)
    tdo := if c then s.tdo.drop (n + 1) else s.tdo
    draws := if c then s.draws + (n + 1 - s.tdo.length) else s.draws }

theorem State.Undisturbed.bitTransfer_eq {s : State} (h : s.Undisturbed) (c : Bool) (b : Byte) (i : Nat) :
    bitTransfer c b i s =
      { s with
        tdi := b.getLsbD i
        tck := false
        bitIdx := BitVec.ofNat 3 i
        acc := if c then s.acc ||| sampleAt (s.tdoAnswer 0) i else s.acc
        trace := s.trace ++ transferOps c (b.getLsbD i) (s.tdoAnswer 0)
        tdo := if c then s.tdo.drop 1 else s.tdo
        draws := if c then s.draws + (1 - s.tdo.length) else s.draws } := by
  have h1 : (s.setBitIdx i).Undisturbed := h
  have h2 := h1.driveLine .tdi (dataBit b i)
  have h3 := h2.driveLine .tck true
  have h4 := h3.driveLine .tck false
  unfold bitTransfer
  rw [h.act_eq, h1.setLine_eq, h2.setLine_eq, h3.setLine_eq]
  cases c with
  | false => simp [State.driveLine, State.setBitIdx, transferOps, dataBit]
  | true =>
    simp only [if_true, sampleTdo]
    rw [h4.readTdo_eq, h4.noteRead.act_eq]
    simp [State.driveLine, State.setBitIdx, transferOps, dataBit, State.noteRead, State.orSample, State.tdoAnswer]

theorem State.afterTransfers_undisturbed {s : State} (h : s.Undisturbed) (c : Bool) (b : Byte) (n : Nat) :
    (s.afterTransfers c b n).Undisturbed := h

/-- With capture, `n + 1` answers have been used up after `n + 1` bit transfers. -/
theorem State.afterTransfers_tdoAnswer (b : Byte) (n k : Nat) (s : State) :
    (s.afterTransfers true b n).tdoAnswer k = s.tdoAnswer (n + 1 + k) := by
  simp only [State.tdoAnswer, State.afterTransfers, if_true, List.length_drop]
  rw [List.getD_eq_getElem?_getD, List.getD_eq_getElem?_getD, List.getElem?_drop]
  by_cases hk : n + 1 + k < s.tdo.length
  · simp [hk]
  · rw [List.getElem?_eq_none (by omega)]
    simp only [Option.getD_none]
    congr 1
    omega

theorem State.Undisturbed.transfers_eq {s : State} (h : s.Undisturbed) (c : Bool) (b : Byte) (n : Nat) :
    (List.range (n + 1)).foldl (fun s i => bitTransfer c b i s) s = s.afterTransfers c b n := by
  induction n with
  | zero =>
    simp only [Nat.zero_add, List.range_one, List.foldl_cons, List.foldl_nil, h.bitTransfer_eq]
    cases c <;> simp [State.afterTransfers, orSamples]
  | succ n ih =>
    rw [List.range_succ, List.foldl_append, ih, List.foldl_cons, List.foldl_nil,
      (State.afterTransfers_undisturbed h c b n).bitTransfer_eq]
    cases c with
    | false => simp [State.afterTransfers, List.range_succ, transferOps]
    | true =>
      rw [State.afterTransfers_tdoAnswer]
      simp only [State.afterTransfers, if_true, orSamples, Nat.add_zero, BitVec.or_assoc, List.drop_drop,
        List.length_drop]
      rw [List.range_succ (n := n + 1), List.flatMap_append, List.append_assoc]
      simp
      omega

/-- The eight bit transfers of a data byte (R90, R91). -/
theorem State.Undisturbed.bitTransfers_eq {s : State} (h : s.Undisturbed) (c : Bool) (b : Byte) :
    bitTransfers c b s = s.afterTransfers c b 7 := h.transfers_eq c b 7

/-- Without capture nothing but the lines is touched before the byte is finished (R99). -/
theorem State.Undisturbed.dataByte_noCapture_eq {s : State} (h : s.Undisturbed) {r : Nat}
    (hd : s.dstate = .inShift r false) (b : Byte) :
    dataByte b s = (s.afterTransfers false b 7).finishByte r false := by
  simp only [dataByte, hd, shiftByte, h.bitTransfers_eq]
  exact (State.afterTransfers_undisturbed h false b 7).act_eq _

/-- With capture and room in the buffer (R90, R111). -/
theorem State.Undisturbed.dataByte_capture_eq {s : State} (h : s.Undisturbed) {r : Nat}
    (hd : s.dstate = .inShift r true) (b : Byte) (hr : s.replyFull = false) :
    dataByte b s =
      (((s.afterTransfers true b 7).pushReply (s.afterTransfers true b 7).acc).clearAcc).finishByte r true := by
  have hf : (s.afterTransfers true b 7).replyFull = false := hr
  simp only [dataByte, hd, shiftByte, h.bitTransfers_eq]
  rw [(State.afterTransfers_undisturbed h true b 7).act_eq, endByte, replyStage_true, replyAppend_of_room hf]

/-- With capture and a full buffer (R90, R111, R119). -/
theorem State.Undisturbed.dataByte_full_eq {s : State} (h : s.Undisturbed) {r : Nat}
    (hd : s.dstate = .inShift r true) (b : Byte) (hr : s.replyFull = true) :
    dataByte b s =
      ((((((s.afterTransfers true b 7).noteWrite s.reply).dropReply
        ((s.afterTransfers true b 7).acceptAnswer s.reply.length)).pushReply
        (s.afterTransfers true b 7).acc).clearAcc).finishByte r true) := by
  have hf : (s.afterTransfers true b 7).replyFull = true := hr
  simp only [dataByte, hd, shiftByte, h.bitTransfers_eq]
  rw [(State.afterTransfers_undisturbed h true b 7).act_eq, endByte, replyStage_true, replyAppend_of_full hf,
    flush_of_ne_nil (reply_ne_nil_of_replyFull hf)]
  rfl

end Sys2Proof.Machine
end

