-- ==== Sys2Proof/Laws/PerInstr.lean ====
section
/-! SUPPORT. One fact about every instruction as syntax: its byte belongs to its own row of the table, in its own
context (spec/30_encoding.md R61). -/

namespace Sys2Proof.Laws.RowMatch

/-- The byte of a well-formed instruction passes the mask, the pattern and the constraint of its row. -/
def Statement (i : Instr) : Prop := i.wellFormed = true → rowMatches i.row i.context (encode i) = true

theorem snop (c : Bool) : Statement (.snop c) := by
  unfold Statement
  revert c
  decide

theorem bb (k m d : Bool) (x : BitVec 4) : Statement (.bb k m d x) := by
  unfold Statement
  revert k m d x
  decide

/-- A count a header can declare lies in 1 to 63 (D2). -/
theorem countOk_iff (n : Nat) : countOk n = true ↔ 1 ≤ n ∧ n < 64 := by
  simp only [countOk, Bool.and_eq_true, decide_eq_true_eq]
  show _ ∧ n ≤ 63 ↔ _
  omega

theorem counts : ∀ n, n < 64 → 1 ≤ n →
    rowMatches rowShift .idle (encode (.shift n)) = true ∧ rowMatches rowShiftc .idle (encode (.shiftc n)) = true := by
  decide

theorem shift (n : Nat) : Statement (.shift n) := fun h =>
  (counts n ((countOk_iff n).1 h).2 ((countOk_iff n).1 h).1).1

theorem shiftc (n : Nat) : Statement (.shiftc n) := fun h =>
  (counts n ((countOk_iff n).1 h).2 ((countOk_iff n).1 h).1).2

theorem data (b : Byte) : Statement (.data b) := by
  unfold Statement
  revert b
  decide

end Sys2Proof.Laws.RowMatch
end

