-- ==== Sys2Proof/Laws/Step.lean ====
section
/-! SUPPORT. What a step can do, said once: which events it takes, and which body each instruction runs. -/

namespace Sys2Proof.Machine

/-- The decoder's answer in `Idle`, by the command `Classify` gives (R57, R70). -/
theorem decodeIdle_eq (b : Byte) :
    decodeIdle b =
      match Config.classify b with
      | .bitBang k m d => .bb k m d (ignoredField b)
      | .shiftHeader n c => if c then .shiftc n else .shift n
      | .malformed => .snop (b.getLsbD 6) := rfl

/-- What is decoded in a context is of that context. -/
theorem decode_context (c : Context) (b : Byte) : (decode c b).context = c := by
  revert b; cases c <;> decide

/-- The statements of an instruction, without the frame it runs in. -/
def bodyOf : Instr → State → State
  | .snop _ => id
  | .bb k m d _ => bitBang k m d
  | .shift n => openSession n false
  | .shiftc n => openSession n true
  | .data b => dataByte b

/-- Every meaning is its statements run in the context of its row. -/
theorem exec_eq (i : Instr) (s : State) : exec i s = inContext i.context i.row.mnemonic (bodyOf i) s := by
  cases i <;> rfl

/-- What an instruction can answer. -/
theorem exec_next {i : Instr} {s t : State} (h : exec i s = .next t) :
    (s.halted = true ∧ t = s) ∨ (s.halted = false ∧ s.dstate.context = i.context ∧ t = act (bodyOf i) s) :=
  inContext_next (exec_eq i s ▸ h)

/-- A byte runs the body of what is decoded from it. -/
theorem onByte_eq (b : Byte) (s : State) : onByte b s = .next (act (bodyOf (decode s.dstate.context b)) s) := by
  rw [onByte, exec_eq, inContext_of_context (decode_context _ b).symm]

/-- A step with an event pending is the core's step on it. -/
theorem step_cons {s : State} {e : Event} {rest : List Event} (h : s.input = e :: rest) :
    step s = onEvent e (s.setInput rest) := by
  simp [step, runNext, State.takeEvent, h]

/-- A step with no event pending is the adapter's read. -/
theorem step_nil {s : State} (h : s.input = []) : step s = .next s.readPacket := by
  simp [step, runNext, State.takeEvent, h]

theorem State.Undisturbed.setInput {s : State} (h : s.Undisturbed) (es : List Event) :
    (s.setInput es).Undisturbed := h

/-- A data byte in a session runs the eight transfers and the rest (R90). -/
theorem act_dataByte {s : State} {r : Nat} {c : Bool} (hd : s.dstate = .inShift r c) (b : Byte) :
    act (dataByte b) s = act (shiftByte r c b) s := by
  have h : s.failPoint.dstate = .inShift r c := s.failPoint_frame.1.trans hd
  simp only [act, dataByte, h]

/-- What the core's step on an event can do: a body run in the present `dstate`. -/
inductive EventCase (s : State) : Event → State → Prop where
  | gpioFail : EventCase s .gpioFail s.raiseHalt
  | eop : EventCase s .eop (act flush s)
  | bitBang {b : Byte} {k m d : Bool} (hd : s.dstate = .idle) (hc : Config.classify b = .bitBang k m d) :
    EventCase s (.byte b) (act (bitBang k m d) s)
  | header {b : Byte} {n : Nat} {c : Bool} (hd : s.dstate = .idle) (hc : Config.classify b = .shiftHeader n c) :
    EventCase s (.byte b) (act (openSession n c) s)
  | malformed {b : Byte} (hd : s.dstate = .idle) (hc : Config.classify b = .malformed) : EventCase s (.byte b) (act id s)
  | data {b : Byte} {r : Nat} {c : Bool} (hd : s.dstate = .inShift r c) :
    EventCase s (.byte b) (act (shiftByte r c b) s)

theorem onEvent_case {e : Event} {s t : State} (h : onEvent e s = .next t) : EventCase s e t := by
  cases e with
  | gpioFail => cases h; exact .gpioFail
  | eop => cases h; exact .eop
  | byte b =>
    rw [onEvent, onByte_eq] at h
    cases h
    cases hd : s.dstate with
    | inShift r c =>
      show EventCase s _ (act (dataByte b) s)
      rw [act_dataByte hd]
      exact .data hd
    | idle =>
      simp only [DState.context, decode, decodeIdle_eq]
      cases hc : Config.classify b with
      | bitBang k m d => exact .bitBang hd hc
      | malformed => exact .malformed hd hc
      | shiftHeader n c => cases c <;> exact .header hd hc

/-- What a step can do: the adapter's read, or the first event taken. -/
theorem step_case {s t : State} (h : step s = .next t) :
    (s.input = [] ∧ t = s.readPacket) ∨
      ∃ e rest, s.input = e :: rest ∧ EventCase (s.setInput rest) e t := by
  cases hi : s.input with
  | nil =>
    rw [step_nil hi] at h
    cases h
    exact .inl ⟨rfl, rfl⟩
  | cons e rest => exact .inr ⟨e, rest, rfl, onEvent_case (step_cons hi ▸ h)⟩

/-- The events are exhausted by the cases: what a relation kept by every primitive says of a step on an event. -/
theorem EventCase.rel {R : State → State → Prop} {s t : State} {e : Event} (h : EventCase s e t) (K : KeptByData R)
    (hh : R s s.raiseHalt) (hl : ∀ (u : State) l v, u.halted = false → R u (u.driveLine l v))
    (ho : ∀ u n c, u.halted = false → R u (openSession n c u))
    (hf : ∀ (u : State) r c, u.halted = false → R u (u.finishByte r c)) : R s t := by
  cases h with
  | gpioFail => exact hh
  | eop => exact K.toKept.of_act fun u hu => K.toKept.of_flush K.write K.drop hu
  | bitBang => exact K.toKept.of_act fun u _ => K.toKept.of_bitBang hl _ _ _ u
  | header => exact K.toKept.of_act fun u hu => ho u _ _ hu
  | malformed => exact K.toKept.of_act fun u _ => K.refl u
  | data =>
    exact K.toKept.of_act fun u _ => K.of_shiftByte (fun w hw => hf w _ _ hw) _ u

end Sys2Proof.Machine
end

