-- ==== Sys2Proof/Laws/Trace.lean ====
section
/-! SUPPORT. How the observations of Safety.lean go over two traces in a row, and what they say of a data byte. -/

namespace Sys2Proof.Machine

theorem replyStream_append (a b : List Op) : replyStream (a ++ b) = replyStream a ++ replyStream b := by
  induction a with
  | nil => rfl
  | cons o a ih => cases o <;> simp [replyStream, ih]

theorem tdoReads_append (a b : List Op) : tdoReads (a ++ b) = tdoReads a ++ tdoReads b := by
  induction a with
  | nil => rfl
  | cons o a ih => cases o <;> simp [tdoReads, ih]

theorem offeredWrites_append (a b : List Op) : offeredWrites (a ++ b) = offeredWrites a ++ offeredWrites b := by
  induction a with
  | nil => rfl
  | cons o a ih => cases o <;> simp [offeredWrites, ih]

theorem pinOps_append (a b : List Op) : pinOps (a ++ b) = pinOps a + pinOps b := by
  induction a with
  | nil => simp [pinOps]
  | cons o a ih => cases o <;> simp [pinOps, ih] <;> omega

theorem tdoReads_dataOps_true (b : Byte) (t : Nat → Bool) : tdoReads (dataOps true b t) = (List.range 8).map t := rfl

theorem tdoReads_dataOps_false (b : Byte) (t : Nat → Bool) : tdoReads (dataOps false b t) = [] := rfl

theorem replyStream_dataOps (c : Bool) (b : Byte) (t : Nat → Bool) : replyStream (dataOps c b t) = [] := by
  cases c <;> rfl

theorem offeredWrites_dataOps (c : Bool) (b : Byte) (t : Nat → Bool) : offeredWrites (dataOps c b t) = [] := by
  cases c <;> rfl

/-- Whole bytes of samples pack apart from what follows them (R34). -/
theorem packBytes_append (xs ys : List Bool) (h : xs.length % 8 = 0) :
    packBytes (xs ++ ys) = packBytes xs ++ packBytes ys := by
  induction xs using packBytes.induct with
  | case1 a b c d e f g i ts ih =>
    simp only [List.cons_append, packBytes]
    rw [ih (by simp only [List.length_cons] at h; omega)]
  | case2 xs hx =>
    match xs, h with
    | [], _ => simp [packBytes]
    | [_], h => simp at h
    | [_, _], h => simp at h
    | [_, _, _], h => simp at h
    | [_, _, _, _], h => simp at h
    | [_, _, _, _, _], h => simp at h
    | [_, _, _, _, _, _], h => simp at h
    | [_, _, _, _, _, _, _], h => simp at h
    | a :: b :: c :: d :: e :: f :: g :: i :: ts, _ => exact absurd rfl (hx a b c d e f g i ts)

theorem packBytes_nextSamples (s : State) : packBytes s.nextSamples = [packByte s.nextSamples] := rfl

/-- The accumulator after eight samples is the packed byte (R92, R97). -/
theorem orSamples_eight (s : State) : orSamples s.tdoAnswer 8 = packByte s.nextSamples := by
  simp only [State.nextSamples, show List.range 8 = [0, 1, 2, 3, 4, 5, 6, 7] from rfl, List.map, orSamples]
  generalize s.tdoAnswer 0 = a0
  generalize s.tdoAnswer 1 = a1
  generalize s.tdoAnswer 2 = a2
  generalize s.tdoAnswer 3 = a3
  generalize s.tdoAnswer 4 = a4
  generalize s.tdoAnswer 5 = a5
  generalize s.tdoAnswer 6 = a6
  generalize s.tdoAnswer 7 = a7
  revert a0 a1 a2 a3 a4 a5 a6 a7
  decide

/-- What was performed since an earlier state, where the trace has only grown. -/
theorem newOps_of_prefix {s t : State} (h : s.trace <+: t.trace) : t.trace = s.trace ++ newOps s t := by
  obtain ⟨l, e⟩ := h
  simp [newOps, ← e]

theorem newOps_trans {s t u : State} (h1 : s.trace <+: t.trace) (h2 : t.trace <+: u.trace) :
    newOps s u = newOps s t ++ newOps t u := by
  have a := newOps_of_prefix h1
  have b := newOps_of_prefix h2
  rw [a, List.append_assoc] at b
  exact List.append_cancel_left ((newOps_of_prefix (h1.trans h2)).symm.trans b)

theorem feed_cons {e : Event} {es : List Event} {s t : State} (h : onEvent e s = .next t) :
    feed (e :: es) s = feed es t := by
  simp [feed, h]

theorem DState.legal_inShift (r : Nat) (c : Bool) : (DState.inShift r c).legal = true ↔ 1 ≤ r ∧ r ≤ 63 := by
  simp only [DState.legal, Bool.and_eq_true, decide_eq_true_eq]
  rfl

end Sys2Proof.Machine
end

