-- ==== Sys2Proof/Tests/Slice0.lean ====
section
/-! SUPPORT. The model's own tests: expected results are those of spec/95_test_vectors.md, the vector named in each
test; and for every statement of Certificates/Slice0/Obligations.lean that has hypotheses, `test_hyps_<its name>`: a
state and operands that meet them. -/

open Sys2Proof Sys2Proof.Machine

set_option maxRecDepth 20000

namespace Sys2Proof.Tests

/-! ## Well-formed and ill-formed -/

theorem test_wf_rejects_count_zero : (Instr.shift 0).wellFormed = false ∧ (Instr.shiftc 0).wellFormed = false := by
  decide

theorem test_wf_rejects_count_64 : (Instr.shift 64).wellFormed = false ∧ (Instr.shiftc 64).wellFormed = false := by
  decide

theorem test_wf_accepts : ∀ i ∈ [Instr.snop true, .bb true true true 0xF, .shift 1, .shift 63, .shiftc 1, .shiftc 63,
    .data 0xFF], i.wellFormed = true := by
  decide

/-! ## Words written out from the encodings R54, R55, R56, R58 -/

/-- `1c000000`. -/
theorem test_decode_snop : decode .idle 0b10000000 = .snop false ∧ decode .idle 0b11000000 = .snop true := by decide

/-- `0xxdxxmk`: k, m, d alone, then all ignored bits, then each ignored bit in its place. -/
theorem test_decode_bb :
    decode .idle 0b00000001 = .bb true false false 0 ∧ decode .idle 0b00000010 = .bb false true false 0 ∧
    decode .idle 0b00010000 = .bb false false true 0 ∧ decode .idle 0b01101100 = .bb false false false 0b1111 ∧
    decode .idle 0b01000000 = .bb false false false 0b1000 ∧ decode .idle 0b00100000 = .bb false false false 0b0100 ∧
    decode .idle 0b00001000 = .bb false false false 0b0010 ∧ decode .idle 0b00000100 = .bb false false false 0b0001 := by
  decide

/-- `10nnnnnn`. -/
theorem test_decode_shift : decode .idle 0b10000001 = .shift 1 ∧ decode .idle 0b10100101 = .shift 37 := by decide

/-- `11nnnnnn`. -/
theorem test_decode_shiftc : decode .idle 0b11000001 = .shiftc 1 ∧ decode .idle 0b11100100 = .shiftc 36 := by decide

/-- In a session every byte is data (E18, E19, E20). -/
theorem test_decode_data : decode .inShift 0xC1 = .data 0xC1 ∧ decode .inShift 0x80 = .data 0x80 ∧
    decode .inShift 0x00 = .data 0x00 := by decide

theorem test_decode_no_byte : decodeBytes .idle [] = .error .noByte ∧ decodeTableWord 0 0x80 = none := by decide

/-! ## Steps -/

/-- The machine after reset with the lines at 0. -/
def zero : State := State.resetWith false false false

/-- In a session, the target's next answers and the transport's next answers as given. -/
def inSession (r : Nat) (c : Bool) (tdo : List Bool) : State := { zero with dstate := .inShift r c, tdo := tdo }

/-- A session with capture that meets a full Reply Buffer, the transport's next answers as given. -/
def fullSession (accepts : List Nat) : State :=
  { inSession 1 true [true, true, true, true, true, true, true, true] with
    reply := List.replicate 64 0x11, accepts := accepts }

/-- The state a step or an instruction ends in. -/
def outcome {α : Type} (f : State → α) : Host.Outcome State Fault Refusal → Option α
  | .next t => some (f t)
  | .fault _ => none
  | .refused _ => none

/-- V6: `2F` with lines (0,1,0). -/
theorem test_bb_v6 :
    outcome (fun t => (t.levels, t.trace))
      (step ((State.resetWith false true false).presentByte 0x2F)) =
      some (⟨true, true, false⟩, [.setLine .tms true, .setLine .tdi false, .setLine .tck true]) := by decide

/-- V4: `12` with lines (1,1,1): a falling edge. -/
theorem test_bb_v4 :
    outcome (fun t => (t.levels, edges ⟨true, true, true⟩ t.trace))
      (step ((State.resetWith true true true).presentByte 0x12)) =
      some (⟨false, true, true⟩, [⟨false, true, true⟩]) := by decide

/-- V15. -/
theorem test_shift_v15 :
    outcome (fun t => (t.dstate, t.trace)) (step (zero.presentByte 0xBF)) = some (.inShift 63 false, []) := by decide

/-- V14. -/
theorem test_shiftc_v14 :
    outcome (fun t => (t.dstate, t.trace)) (step (zero.presentByte 0xC1)) = some (.inShift 1 true, []) := by decide

/-- V17, V18. -/
theorem test_snop_v17_v18 :
    outcome id (step (zero.presentByte 0x80)) = some zero ∧ outcome id (step (zero.presentByte 0xC0)) = some zero := by
  decide

/-- V21: the samples 1,1,0,1,0,0,1,0 make the reply byte `4B`, TDI low throughout. -/
theorem test_data_v21 :
    outcome (fun t => (t.reply, t.dstate, t.levels))
      (step ((inSession 1 true [true, true, false, true, false, false, true, false]).presentByte 0x00)) =
      some ([0x4B], .idle, ⟨false, false, false⟩) := by decide

/-- V26: without capture, the TDI levels of `80` are seven times 0 and once 1; 24 operations, nothing appended. -/
theorem test_data_v26 :
    outcome (fun t => (t.trace, t.reply)) (step ((inSession 1 false []).presentByte 0x80)) =
      some ((List.range 7).flatMap (fun _ => [.setLine .tdi false, .setLine .tck true, .setLine .tck false]) ++
        [.setLine .tdi true, .setLine .tck true, .setLine .tck false], []) := by decide

/-- V35, at its byte `BB`: the full buffer is offered and refused, the new byte is lost. -/
theorem test_overrun_v35 :
    outcome (fun t => (t.reply.length, t.overrun, t.dstate)) (exec (.data 0xBB) (fullSession [0])) =
      some (64, true, .idle) := by decide

/-- V36, at its byte `BB`: the buffer is taken, the new byte (here of eight samples 1) is alone in it. -/
theorem test_flush_v36 :
    outcome (fun t => (t.reply, t.overrun)) (exec (.data 0xBB) (fullSession [64])) = some ([0xFF], false) := by decide

/-- V33, first `EOP`. -/
theorem test_eop_v33 :
    outcome (fun t => (t.reply, t.trace))
      (step { zero with reply := [0x11, 0x22, 0x33], accepts := [1], input := [.eop] }) =
      some ([0x22, 0x33], [.transportWrite [0x11, 0x22, 0x33] 1]) := by decide

/-- V38: GpioFail after the third bit transfer (19 failure points: one before the byte, six in each transfer). -/
theorem test_gpio_fail_v38 :
    outcome (fun t => (t.trace, t.halted, t.dstate, t.acc, t.reply))
      (exec (.data 0xFF) { inSession 1 true [true, true, true] with gpioFail := some 19 }) =
      some ((List.range 3).flatMap (fun _ =>
        [.setLine .tdi true, .setLine .tck true, .setLine .tck false, .readTdo true]),
        true, .inShift 1 true, 0x07, []) := by decide

/-- R134, R140 at V35's byte `BB`: of its 50 failure points the last stands before the refused write. A GpioFail there
leaves the write undone; one that would come later does not reach the step, which ends in overrun alone. -/
theorem test_gpio_fail_or_overrun :
    outcome (fun t => (t.halted, t.overrun, (offeredWrites t.trace).length))
      (exec (.data 0xBB) { fullSession [0] with gpioFail := some 49 }) = some (true, false, 0) ∧
    outcome (fun t => (t.halted, t.overrun, (offeredWrites t.trace).length))
      (exec (.data 0xBB) { fullSession [0] with gpioFail := some 50 }) = some (false, true, 1) := by decide

/-! ## Witnesses of hypotheses -/

theorem undisturbed_zero : zero.Undisturbed := ⟨rfl, rfl⟩

theorem inv_zero : zero.Inv := ⟨rfl, fun _ => ⟨rfl, rfl⟩, by decide⟩

theorem undisturbed_session (r : Nat) (c : Bool) (tdo : List Bool) : (inSession r c tdo).Undisturbed := ⟨rfl, rfl⟩

theorem undisturbed_full (accepts : List Nat) : (fullSession accepts).Undisturbed := ⟨rfl, rfl⟩

/-- The eight answers a loop-back gives while `A5` is shifted out. -/
def a5 : List Bool := [true, false, true, false, false, true, false, true]

theorem test_hyps_RowsPartitionTheBytes :
    rowSnop ∈ opcodeRows ∧ rowMatches rowSnop .idle 0xC0 = true ∧ rowMask rowSnop 0xC0 = true ∧
      rowData ∈ opcodeRows ∧ rowMatches rowData .inShift 0xC0 = true := by decide

theorem test_hyps_EncodingFunction : (1 ≤ 1 ∧ 1 ≤ 63) ∧ (1 ≤ 63 ∧ 63 ≤ 63) := by decide

theorem test_hyps_DecodeOfEncode :
    (Instr.snop true).wellFormed = true ∧ (Instr.bb true false true 0b1010).wellFormed = true ∧
      (Instr.shift 63).wellFormed = true ∧ (Instr.shiftc 1).wellFormed = true ∧ (Instr.data 0).wellFormed = true := by
  decide

theorem test_hyps_StepRunsTheDecodedByte : (zero.presentByte 0xC1).input = .byte 0xC1 :: [] := rfl

theorem test_hyps_PlacedWordIsRunNext : 0 < 256 ∧ 255 < 256 := by decide

/-- Halted; `Idle` with a byte of each of the three commands; in a session. -/
theorem test_hyps_DispatchOfAByte :
    ({ zero with halted := true, input := [.byte 0x01] }).input = .byte 0x01 :: [] ∧
    zero.halted = false ∧ zero.dstate = .idle ∧ (zero.presentByte 0x7F).input = .byte 0x7F :: [] ∧
    Config.classify 0x7F = .bitBang true true true ∧ Config.classify 0x81 = .shiftHeader 1 false ∧ Config.classify 0xC0 = .malformed ∧
    (inSession 63 true []).dstate = .inShift 63 true ∧
    ((inSession 63 true []).presentByte 0x80).input = .byte 0x80 :: [] := by decide

theorem test_hyps_NoByteTrapsFaultsOrHalts :
    ∃ b rest, (zero.presentByte 0x80).input = .byte b :: rest ∧ (zero.presentByte 0x80).gpioFail = none :=
  ⟨0x80, [], rfl, rfl⟩

theorem test_hyps_EventsAreTakenInOrder :
    ∃ t, ({ zero with input := [.byte 0x81, .eop] }).input = .byte 0x81 :: [.eop] ∧
      step { zero with input := [.byte 0x81, .eop] } = .next t := ⟨_, rfl, rfl⟩

theorem test_hyps_AdapterPresentsAPacket : zero.input = [] ∧ ({ zero with gpioFail := some 3 }).gpioFail = some 3 :=
  ⟨rfl, rfl⟩

theorem test_hyps_HaltedCoreIgnoresEvents :
    ({ zero with halted := true, input := [.eop] }).halted = true ∧
      ({ zero with halted := true, input := [.eop] }).input = .eop :: [] ∧ Event.eop ≠ .gpioFail := by decide

theorem test_hyps_HaltIsForever :
    ∃ t, ({ zero with halted := true, input := [.byte 0x13] }).halted = true ∧
      step { zero with halted := true, input := [.byte 0x13] } = .next t ∧
      ({ zero with halted := true, input := [.byte 0x13] }).input.head? ≠ some .gpioFail := ⟨_, rfl, rfl, by decide⟩

theorem test_hyps_GpioFailHalts : ({ zero with input := [.gpioFail] }).input = .gpioFail :: [] := rfl

/-- The GpioFail arrives inside the data byte; in the second state it comes only after it. -/
theorem test_hyps_GpioFailCutsTheStep :
    (∃ t u : State,
      step { inSession 1 true a5 with gpioFail := some 19, input := [.byte 0xA5] } = .next t ∧
      step (State.calm { inSession 1 true a5 with gpioFail := some 19, input := [.byte 0xA5] }) = .next u ∧
      t.halted = true) ∧
    (∃ t u : State,
      step { inSession 1 true a5 with gpioFail := some 99, input := [.byte 0xA5] } = .next t ∧
      step (State.calm { inSession 1 true a5 with gpioFail := some 99, input := [.byte 0xA5] }) = .next u ∧
      t.halted = false) := ⟨⟨_, _, rfl, rfl, rfl⟩, ⟨_, _, rfl, rfl, rfl⟩⟩

theorem test_hyps_OnlyGpioFailHalts :
    (∃ t, step { zero with input := [.gpioFail] } = .next t ∧ zero.halted = false ∧ t.halted = true) ∧
    (∃ t, step { zero with gpioFail := some 0, input := [.byte 0x13] } = .next t ∧ t.halted = true) :=
  ⟨⟨_, rfl, rfl, rfl⟩, ⟨_, rfl, rfl⟩⟩

theorem test_hyps_FaultFlagsAreSticky :
    ∃ t, step { zero with halted := true, overrun := true, input := [.byte 0x13] } = .next t := ⟨_, rfl⟩

theorem test_hyps_EveryStepKeepsInv :
    (zero.presentByte 0xFF).Inv ∧ (∃ t, step (zero.presentByte 0xFF) = .next t) ∧
      ({ fullSession [0] with input := [.byte 0xBB] }).Inv ∧
      ∃ t, step { fullSession [0] with input := [.byte 0xBB] } = .next t :=
  ⟨⟨rfl, fun _ => ⟨rfl, rfl⟩, by decide⟩, ⟨_, rfl⟩, ⟨rfl, fun _ => ⟨rfl, rfl⟩, by decide⟩, ⟨_, rfl⟩⟩

/-- `Idle`; a session with two bytes to come, and with one; `EOP`; GpioFail. -/
theorem test_hyps_TransitionTable :
    (zero.presentByte 0xC1).Undisturbed ∧ zero.dstate = .idle ∧
    ((inSession 2 true []).presentByte 0xC1).Undisturbed ∧ (inSession 2 true []).dstate = .inShift 2 true ∧
    ((inSession 1 false []).presentByte 0xC1).Undisturbed ∧ (inSession 1 false []).dstate = .inShift 1 false ∧
    ({ zero with input := [.eop] }).input = .eop :: [] ∧ ({ zero with input := [.gpioFail] }).input = .gpioFail :: [] :=
  ⟨⟨rfl, rfl⟩, rfl, ⟨rfl, rfl⟩, rfl, ⟨rfl, rfl⟩, rfl, rfl, rfl⟩

theorem test_hyps_TraceOnlyGrows : ∃ t, step (zero.presentByte 0x13) = .next t ∧ t.trace ≠ [] :=
  ⟨_, rfl, by decide⟩

/-- A read and a line write inside a session, a write of TMS in `Idle`, a transport write. -/
theorem test_hyps_WhereOperationsComeFrom :
    (∃ t, step ((inSession 1 true a5).presentByte 0xA5) = .next t ∧
      .readTdo true ∈ newOps ((inSession 1 true a5).presentByte 0xA5) t ∧
      .setLine .tck true ∈ newOps ((inSession 1 true a5).presentByte 0xA5) t) ∧
    (∃ t, step (zero.presentByte 0x02) = .next t ∧ .setLine .tms true ∈ newOps (zero.presentByte 0x02) t) ∧
    (∃ t, step { fullSession [10] with input := [.eop] } = .next t ∧
      .transportWrite (List.replicate 64 0x11) 10 ∈ newOps { fullSession [10] with input := [.eop] } t) :=
  ⟨⟨_, rfl, by decide, by decide⟩, ⟨_, rfl, by decide⟩, ⟨_, rfl, by decide⟩⟩

/-- Both bounds are reached: 32 pin operations and a write of 64 bytes in one step. -/
theorem test_hyps_StepIsBounded :
    ({ fullSession [10] with input := [.byte 0xA5] }).Inv ∧
    ∃ t, step { fullSession [10] with input := [.byte 0xA5] } = .next t ∧
      pinOps (newOps { fullSession [10] with input := [.byte 0xA5] } t) = 32 ∧
      offeredWrites (newOps { fullSession [10] with input := [.byte 0xA5] } t) = [(List.replicate 64 0x11, 10)] :=
  ⟨⟨rfl, fun _ => ⟨rfl, rfl⟩, by decide⟩, ⟨_, rfl, by decide, by decide⟩⟩

theorem test_hyps_LatchesAreNeverRead : ∃ t, step ((inSession 1 true a5).presentByte 0xA5) = .next t := ⟨_, rfl⟩

theorem test_hyps_OnlyBitBangChangesTms :
    ∃ t, step (zero.presentByte 0x02) = .next t ∧ t.halted = false ∧ t.tms ≠ (zero.presentByte 0x02).tms :=
  ⟨_, rfl, rfl, by decide⟩

theorem test_hyps_OutsideItsContextRefused :
    zero.halted = false ∧ zero.dstate.context ≠ (Instr.data 0x00).context ∧
      (inSession 1 true []).halted = false ∧ (inSession 1 true []).dstate.context ≠ (Instr.shift 1).context := by decide

theorem test_hyps_BitBangResult : zero.Undisturbed ∧ zero.dstate = .idle := ⟨undisturbed_zero, rfl⟩

/-- TCK at the level of the byte, and not. -/
theorem test_hyps_BitBangEdges :
    zero.Undisturbed ∧ zero.dstate = .idle ∧ (false = zero.tck) ∧ (true ≠ zero.tck) :=
  ⟨undisturbed_zero, rfl, rfl, by decide⟩

theorem test_hyps_BitBangLevelsAndIdempotence : zero.Undisturbed ∧ zero.dstate = .idle := ⟨undisturbed_zero, rfl⟩

theorem test_hyps_BitBangFrame :
    ∃ t, exec (.bb true false true 0) zero = .next t ∧ t.halted = false := ⟨_, rfl, rfl⟩

theorem test_hyps_HeaderOpensASession : zero.Undisturbed ∧ zero.dstate = .idle := ⟨undisturbed_zero, rfl⟩

theorem test_hyps_MalformedHeaderDoesNothing : zero.Undisturbed ∧ zero.dstate = .idle := ⟨undisturbed_zero, rfl⟩

theorem test_hyps_HeaderFrame :
    (∃ t, exec (.shift 63) zero = .next t ∧ t.halted = false) ∧ (∃ t, exec (.shiftc 1) zero = .next t) ∧
      (∃ t, exec (.snop true) zero = .next t) ∧ (Instr.snop true).command = some .malformed :=
  ⟨⟨_, rfl, rfl⟩, ⟨_, rfl⟩, ⟨_, rfl⟩, rfl⟩

/-- The last byte of a session and the first of the longest. -/
theorem test_hyps_DataWithoutCapture :
    (inSession 1 false []).Undisturbed ∧ (inSession 1 false []).dstate = .inShift 1 false ∧
      (inSession 63 false []).Undisturbed ∧ (inSession 63 false []).dstate = .inShift 63 false :=
  ⟨undisturbed_session _ _ _, rfl, undisturbed_session _ _ _, rfl⟩

theorem test_hyps_DataWithCapture :
    (inSession 1 true a5).Undisturbed ∧ (inSession 1 true a5).dstate = .inShift 1 true ∧
      (inSession 1 true a5).reply.length ≠ Config.mtu := ⟨undisturbed_session _ _ _, rfl, by decide⟩

/-- The transport takes nothing, one byte, all. -/
theorem test_hyps_DataWithAFullBuffer :
    (∀ n, (fullSession [n]).Undisturbed) ∧ (fullSession [0]).dstate = .inShift 1 true ∧
      (fullSession [0]).reply.length = Config.mtu ∧ (fullSession [1]).accepts = 1 :: [] ∧
      (fullSession [64]).accepts = 64 :: [] := ⟨fun _ => undisturbed_full _, rfl, by decide, rfl, rfl⟩

theorem test_hyps_DataTrace :
    (inSession 1 true a5).Undisturbed ∧ (inSession 1 true a5).dstate = .inShift 1 true ∧
      (inSession 1 false []).Undisturbed ∧ (inSession 1 false []).dstate = .inShift 1 false :=
  ⟨undisturbed_session _ _ _, rfl, undisturbed_session _ _ _, rfl⟩

/-- With room; and with a full buffer of which the transport takes one byte. -/
theorem test_hyps_ReplyByteIsTheSamples :
    ((inSession 1 true a5).Undisturbed ∧ (inSession 1 true a5).dstate = .inShift 1 true ∧
      (inSession 1 true a5).acc = 0 ∧ (inSession 1 true a5).reply.length ≠ Config.mtu ∧
      ∃ t, exec (.data 0x00) (inSession 1 true a5) = .next t) ∧
    ((fullSession [1]).Undisturbed ∧ (fullSession [1]).dstate = .inShift 1 true ∧ (fullSession [1]).acc = 0 ∧
      ∃ t, exec (.data 0x00) (fullSession [1]) = .next t ∧
        .transportWrite (fullSession [1]).reply 0 ∉ newOps (fullSession [1]) t) :=
  ⟨⟨undisturbed_session _ _ _, rfl, rfl, by decide, _, rfl⟩, undisturbed_full _, rfl, rfl, _, rfl, by decide⟩

theorem test_hyps_LinesAfterAData :
    ((inSession 1 true a5).Undisturbed ∧ (inSession 1 true a5).dstate = .inShift 1 true) ∧
    ((zero.presentByte 0x01).Undisturbed ∧ (zero.presentByte 0x01).input = .byte 0x01 :: [] ∧
      ∃ t, step (zero.presentByte 0x01) = .next t ∧ t.levels ≠ (zero.presentByte 0x01).levels) ∧
    countOk 1 = true ∧ zero.Undisturbed ∧ zero.dstate = .idle ∧ noGpioFail [.eop, .byte 0x80] = true ∧
      byteCount [.eop, .byte 0x80] ≤ 1 ∧ ∃ t, feed [.byte (encode (.shift 1)), .eop, .byte 0x80] zero = .next t :=
  ⟨⟨undisturbed_session _ _ _, rfl⟩, ⟨⟨rfl, rfl⟩, rfl, _, rfl, by decide⟩, by decide, undisturbed_zero, rfl, rfl, by decide,
    _, rfl⟩

/-- TCK low and TCK high. -/
theorem test_hyps_TckHighLosesAnEdge :
    (inSession 1 true a5).Undisturbed ∧ (inSession 1 true a5).dstate = .inShift 1 true ∧
      ({ inSession 1 false [] with tck := true }).Undisturbed ∧
      ({ inSession 1 false [] with tck := true }).dstate = .inShift 1 false :=
  ⟨undisturbed_session _ _ _, rfl, ⟨rfl, rfl⟩, rfl⟩

theorem test_hyps_DataFrame :
    (∃ t, exec (.data 0x55) (inSession 2 true a5) = .next t ∧ t.halted = false) ∧
      (inSession 2 true a5).reply.length ≠ Config.mtu ∧
      (∃ t, exec (.data 0x55) (inSession 2 false []) = .next t ∧ t.halted = false) ∧
      (inSession 2 false []).dstate = .inShift 2 false := ⟨⟨_, rfl, rfl⟩, by decide, ⟨_, rfl, rfl⟩, rfl⟩

/-- An empty buffer; a full one. -/
theorem test_hyps_FlushRule :
    zero.Undisturbed ∧ zero.reply = [] ∧ (fullSession [10]).Undisturbed ∧ (fullSession [10]).reply ≠ [] ∧
      (fullSession [10]).accepts = 10 :: [] ∧ (fullSession [10]).Inv :=
  ⟨undisturbed_zero, rfl, undisturbed_full _, by decide, rfl, rfl, fun _ => ⟨rfl, rfl⟩, by decide⟩

/-- 63 bytes; 64 bytes, refused; 64 bytes, taken. -/
theorem test_hyps_ReplyAppendRule :
    ({ zero with reply := List.replicate 63 0x11 }).Undisturbed ∧ (List.replicate 63 (0x11 : Byte)).length ≠ Config.mtu ∧
      (fullSession [0]).Undisturbed ∧ (fullSession [0]).reply.length = Config.mtu ∧
      (flush (fullSession [0])).reply.length = Config.mtu ∧ (flush (fullSession [1])).reply.length ≠ Config.mtu :=
  ⟨⟨rfl, rfl⟩, by decide, undisturbed_full _, by decide, by decide, by decide⟩

theorem test_hyps_EndOfPacketFlushes :
    ({ zero with halted := true, input := [.eop] }).input = .eop :: [] ∧
      ({ zero with halted := true, input := [.eop] }).halted = true ∧
      ({ fullSession [10] with input := [.eop] }).input = .eop :: [] ∧
      ({ fullSession [10] with input := [.eop] }).Undisturbed := ⟨rfl, rfl, rfl, ⟨rfl, rfl⟩⟩

theorem test_hyps_EndOfPacketFrame :
    ∃ t, ({ fullSession [10] with input := [.eop] }).input = .eop :: [] ∧
      step { fullSession [10] with input := [.eop] } = .next t ∧ t.halted = false := ⟨_, rfl, rfl, rfl⟩

/-- Ten of 64 bytes taken, one byte appended since. -/
theorem test_hyps_RefusedBytesAreOfferedAgain :
    (fullSession [10, 54]).Undisturbed ∧ (fullSession [10, 54]).reply ≠ [] ∧
      ∃ u : State, u.Undisturbed ∧ u.reply = (flush (fullSession [10, 54])).reply ++ [0x22] ∧ u.reply ≠ [] :=
  ⟨undisturbed_full _, by decide, (flush (fullSession [10, 54])).pushReply 0x22, ⟨rfl, rfl⟩, by decide, by decide⟩

/-- Both directions, on the step of V35. -/
theorem test_hyps_OverrunOnlyByRefusal :
    ∃ t, step { fullSession [0] with input := [.byte 0xBB] } = .next t ∧ (fullSession [0]).overrun = false ∧
      t.overrun = true ∧
      .transportWrite (fullSession [0]).reply 0 ∈ newOps { fullSession [0] with input := [.byte 0xBB] } t ∧
      (fullSession [0]).reply.length = Config.mtu := ⟨_, rfl, rfl, by decide, by decide, by decide⟩

/-- A step that halts before its write, and one that ends in overrun. -/
theorem test_hyps_AStepMeetsOneError :
    (fullSession [0]).halted = false ∧ (fullSession [0]).overrun = false ∧
    (∃ t, step { fullSession [0] with gpioFail := some 49, input := [.byte 0xBB] } = .next t ∧ t.halted = true) ∧
    (∃ t, step { fullSession [0] with gpioFail := some 50, input := [.byte 0xBB] } = .next t ∧ t.overrun = true) :=
  ⟨rfl, rfl, ⟨_, rfl, by decide⟩, ⟨_, rfl, by decide⟩⟩

/-- A session with one reply byte queued, of the eight samples read so far. -/
theorem test_hyps_ReplyStreamLosesNothing :
    ∃ s t : State, s.Inv ∧ s.ReplyLaw ∧ s.halted = false ∧ s.overrun = false ∧ s.reply = [0xA5] ∧
      tdoReads s.trace = a5 ∧ step s = .next t := by
  refine ⟨{ inSession 1 true a5 with reply := [0xA5], trace := a5.map .readTdo, input := [.byte 0x00] }, _,
    ⟨rfl, fun _ => ⟨rfl, rfl⟩, by decide⟩, fun _ _ => ?_, rfl, rfl, rfl, rfl, rfl⟩
  decide

/-- V14 and a data byte in one packet, the transport takes the reply byte. -/
theorem test_hyps_AcceptingTransportDrainsAPacket :
    ∃ t : State, ([0xC1, 0xA5] : List Byte).length ≤ Config.rxmax ∧
      ({ zero with tdo := a5, accepts := [1] }).Undisturbed ∧ ({ zero with tdo := a5, accepts := [1] }).Inv ∧
      zero.reply = [] ∧ feed (packetEvents [0xC1, 0xA5]) { zero with tdo := a5, accepts := [1] } = .next t ∧
      acceptsAll (newOps { zero with tdo := a5, accepts := [1] } t) = true :=
  ⟨_, by decide, ⟨rfl, rfl⟩, ⟨rfl, fun _ => ⟨rfl, rfl⟩, by decide⟩, rfl, rfl, by decide⟩

/-- A session that ends and one that goes on, across a packet boundary. -/
theorem test_hyps_SessionTakesExactlyItsCount :
    countOk 1 = true ∧ countOk 63 = true ∧ zero.Undisturbed ∧ zero.dstate = .idle ∧
      noGpioFail [.eop, .byte 0x80] = true ∧ byteCount [.eop, .byte 0x80] ≤ 1 ∧ byteCount [.eop, .byte 0x80] ≤ 63 :=
  ⟨by decide, by decide, undisturbed_zero, rfl, rfl, by decide, by decide⟩

/-- V22. -/
theorem test_hyps_LoopBackReturnsTheBytes :
    ∃ t, (inSession 1 true a5).Undisturbed ∧ (inSession 1 true a5).Inv ∧
      (inSession 1 true a5).dstate = .inShift 1 true ∧ ([0xA5] : List Byte).length ≤ 1 ∧
      feed (([0xA5] : List Byte).map .byte) (inSession 1 true a5) = .next t ∧
      loopBack (inSession 1 true a5).tdi (newOps (inSession 1 true a5) t) = true ∧
      (inSession 1 true a5).reply.length + 1 ≤ Config.mtu :=
  ⟨_, undisturbed_session _ _ _, ⟨rfl, fun _ => ⟨rfl, rfl⟩, by decide⟩, rfl, by decide, rfl, by decide, by decide⟩

/-- P5 without its bit-bang byte: clean and complete at its `EOP`. A session of two cut, as in V31, by an `EOP`: clean, not
complete. -/
theorem test_hyps_CompleteRunDeliversEverything :
    zero.Inv ∧ zero.ReplyLaw ∧
    (∃ t, CompleteRun 4 { zero with input := [.byte 0x80, .byte 0x81, .byte 0x80, .byte 0xC0, .eop] } t) ∧
    (∃ t, CleanRun 2 { zero with tdo := a5, accepts := [1], input := [.byte 0xC2, .byte 0xA5, .eop] } t ∧
      t.complete = false) :=
  ⟨inv_zero, fun _ _ => ⟨rfl, rfl⟩, ⟨_, ⟨_, rfl, rfl, rfl⟩, by decide⟩, ⟨_, ⟨⟨_, rfl, rfl, rfl⟩, by decide⟩, by decide⟩⟩

/-- A run does not end in the middle of a packet: after the `01` of `01 80 EOP` the state is clean, complete and no end. -/
theorem test_no_run_ends_mid_packet :
    ∀ t : State, ¬ FiniteRun 0 { zero with input := [.byte 0x01, .byte 0x80, .eop] } t := by
  rintro t ⟨u, hu, he, -⟩
  cases hu
  revert he
  decide

end Sys2Proof.Tests
end

/-! # The scope: the step on a byte, and the trace of a step (spec/00_scope.md) -/

namespace Sys2Proof.Machine

/-! ## A byte is decoded in the `dstate` it is taken in -/

/-- A step with a byte pending is the meaning of what the byte is in the present `dstate` (R45, R52). -/
theorem step_byte {s : State} {b : Byte} {rest : List Event} (h : s.input = .byte b :: rest) :
    step s = exec (decode s.dstate.context b) (s.setInput rest) := by
  rw [step_cons h, onEvent, onByte, State.setInput_dstate]

/-- Settles O10: the event taken is the byte, and the step on it is `exec` of what is decoded from it. -/
theorem stepRunsTheDecodedByte : Obligations.StepRunsTheDecodedByte :=
  fun _ _ _ h => step_byte h

/-! ## The trace only grows -/

/-- Every operation performed before the first state stands, in its place, in the trace of the second (R6). -/
def TraceGrows (s t : State) : Prop := s.trace <+: t.trace

theorem TraceGrows.of_eq {s t : State} (h : t.trace = s.trace) : TraceGrows s t :=
  ⟨[], by rw [List.append_nil, h]⟩

theorem TraceGrows.of_append {s t : State} {ops : List Op} (h : t.trace = s.trace ++ ops) : TraceGrows s t :=
  ⟨ops, h.symm⟩

theorem TraceGrows.driveLine (s : State) (l : Line) (v : Bool) : TraceGrows s (s.driveLine l v) :=
  .of_append (State.driveLine_trace l v s)

/-- A primitive notes one operation at the end of the trace, or leaves the trace alone. -/
theorem traceGrows_kept : KeptByData TraceGrows where
  refl _ := .of_eq rfl
  trans := List.IsPrefix.trans
  failPoint s :=
    have ⟨_, _, _, _, _, htrace, _⟩ := s.failPoint_frame
    .of_eq htrace
  drive u l v _ _ := .driveLine u l v
  setBitIdx u i _ := .of_eq (State.setBitIdx_trace i u)
  read u _ := .of_append u.noteRead_trace
  orSample u t i _ := .of_eq (State.orSample_trace t i u)
  write u _ _ := .of_append (State.noteWrite_trace u.reply u)
  drop u c _ := .of_eq (State.dropReply_trace c u)
  push u v _ := .of_eq (State.pushReply_trace v u)
  clear u _ := .of_eq u.clearAcc_trace

/-- The core's step on an event keeps what was observed before it. -/
theorem EventCase.traceGrows {s t : State} {e : Event} (h : EventCase s e t) : TraceGrows s t :=
  h.rel traceGrows_kept (.of_eq s.raiseHalt_trace) (fun u l v _ => .driveLine u l v)
    (fun u n c _ => .of_eq (openSession_trace n c u)) (fun u r c _ => .of_eq (State.finishByte_trace r c u))

/-- A step keeps what was observed before it: the adapter's read is no operation, and taking an event off the input
leaves the trace to the core's step on it. -/
theorem step_traceGrows {s t : State} (h : step s = .next t) : TraceGrows s t := by
  obtain ⟨-, rfl⟩ | ⟨e, rest, -, hcase⟩ := step_case h
  · exact .of_eq s.readPacket_trace
  · exact traceGrows_kept.trans (.of_eq (State.setInput_trace rest s)) hcase.traceGrows

/-- Settles O24: every primitive a step is made of keeps the earlier trace at the front of the new one, so the step does. -/
theorem traceOnlyGrows : Obligations.TraceOnlyGrows :=
  fun _ _ h => newOps_of_prefix (step_traceGrows h)

end Sys2Proof.Machine

/-! # The state: its invariants, its flags, and who may touch what (spec/10_state.md) -/

namespace Sys2Proof.Machine

/-! ## The invariants at reset -/

/-- Settles O9: at reset the core is idle, and accumulator, bit index, Reply Buffer and trace are all empty. -/
theorem invHoldsAtReset : Obligations.InvHoldsAtReset :=
  ⟨⟨rfl, fun _ => ⟨rfl, rfl⟩, Nat.zero_le _⟩, fun _ _ => ⟨rfl, rfl⟩⟩

/-! ## A predicate that a change of state preserves -/

/-- The second state has the property where the first one has it. -/
def Preserves (P : State → Prop) (s t : State) : Prop := P s → P t

/-- To preserve a property is a relation to build commands up with, where a failure point preserves it. -/
theorem Preserves.kept {P : State → Prop} (hP : ∀ s : State, P s → P s.failPoint) : Kept (Preserves P) where
  refl _ := id
  trans hst htu := htu ∘ hst
  failPoint := hP

/-! ## A data byte without capture -/

section
variable {R : State → State → Prop}

/-- Without capture a relation need not be kept by a read, nor by the accumulator's update (R99). -/
theorem Kept.of_bitTransfers_noCapture (K : Kept R)
    (hl : ∀ (u : State) l v, l ≠ .tms → u.halted = false → R u (u.driveLine l v))
    (hb : ∀ (u : State) i, u.halted = false → R u (u.setBitIdx i)) (b : Byte) (s : State) :
    R s (bitTransfers false b s) :=
  K.of_foldl (fun s i => K.of_bitTransfer hl hb (absurd · Bool.false_ne_true) (absurd · Bool.false_ne_true) b i s) _ s

/-- Nor by anything done with the Reply Buffer (R99). -/
theorem Kept.of_shiftByte_noCapture (K : Kept R)
    (hl : ∀ (u : State) l v, l ≠ .tms → u.halted = false → R u (u.driveLine l v))
    (hb : ∀ (u : State) i, u.halted = false → R u (u.setBitIdx i)) {r : Nat}
    (hf : ∀ u : State, u.halted = false → R u (u.finishByte r false)) (b : Byte) (s : State) :
    R s (shiftByte r false b s) :=
  K.trans (K.of_bitTransfers_noCapture hl hb b s) (K.of_act hf)

end

/-! ## I1: a legal `dstate` -/

/-- `dstate` is legal (R24, I1). -/
def State.Legal (s : State) : Prop := s.dstate.legal = true

theorem Preserves.legal_of_eq {s t : State} (h : t.dstate = s.dstate) : Preserves State.Legal s t :=
  fun hs => (congrArg DState.legal h).trans hs

/-- No primitive of a data byte but its last assignment touches `dstate`. -/
theorem legal_kept : KeptByData (Preserves State.Legal) where
  toKept := Preserves.kept fun s => Preserves.legal_of_eq s.failPoint_frame.1
  drive u l v _ _ := .legal_of_eq (State.driveLine_dstate l v u)
  setBitIdx _ _ _ := .legal_of_eq rfl
  read _ _ := .legal_of_eq rfl
  orSample _ _ _ _ := .legal_of_eq rfl
  write _ _ _ := .legal_of_eq rfl
  drop _ _ _ := .legal_of_eq rfl
  push u v _ := .legal_of_eq (State.pushReply_dstate v u)
  clear _ _ := .legal_of_eq rfl

/-- The count field has six bits (R55). -/
theorem countField_le (b : Byte) : countField b ≤ 63 :=
  Nat.le_of_lt_succ (b.extractLsb' 0 6).isLt

/-- A header declares a count in 1 to `NMAX`, so the session it opens is legal (R14, R57). -/
theorem legal_of_classify_shiftHeader {b : Byte} {n : Nat} {c : Bool} (h : Config.classify b = .shiftHeader n c) :
    (DState.inShift n c).legal = true := by
  unfold Config.classify at h
  split at h
  · cases h
  · split at h
    · cases h
    · cases h
      exact (DState.legal_inShift _ _).2 ⟨Nat.pos_of_ne_zero ‹_›, countField_le b⟩

/-- One byte less to come leaves a legal session legal, or closes it (R90, R94). -/
theorem DState.afterByte_legal {r : Nat} {c : Bool} (h : (DState.inShift r c).legal = true) :
    (DState.afterByte r c).legal = true := by
  rw [DState.legal_inShift] at h
  unfold DState.afterByte
  split
  · rfl
  · rw [DState.legal_inShift]
    omega

theorem EventCase.legal {s t : State} {e : Event} (h : EventCase s e t) : Preserves State.Legal s t := by
  have K := legal_kept
  intro hs
  cases h with
  | gpioFail => exact hs
  | eop => exact K.of_act (fun _ hu => K.of_flush K.write K.drop hu) hs
  | bitBang =>
    exact K.of_act (fun u _ => K.of_bitBang (fun w l v _ => .legal_of_eq (State.driveLine_dstate l v w)) _ _ _ u) hs
  | header _ hc => exact K.of_act (fun _ _ _ => legal_of_classify_shiftHeader hc) hs
  | malformed => exact K.of_act (fun _ _ => id) hs
  | data hd =>
    have hsession := (congrArg DState.legal hd).symm.trans hs
    exact K.of_act (fun u _ => K.of_shiftByte (fun _ _ _ => DState.afterByte_legal hsession) _ u) hs

/-! ## I2: between two steps no bit transfer is in progress -/

/-- Where the core is not halted, accumulator and bit index are 0 (R24, I2). -/
def State.Quiet (s : State) : Prop := s.halted = false → s.acc = 0 ∧ s.bitIdx = 0

theorem State.Quiet.of_halted {s : State} (h : s.halted = true) : s.Quiet :=
  fun h' => absurd (h.symm.trans h') nofun

theorem Preserves.quiet_of_eq {s t : State} (hh : t.halted = s.halted) (ha : t.acc = s.acc) (hb : t.bitIdx = s.bitIdx) :
    Preserves State.Quiet s t :=
  fun hs ht => ⟨ha.trans (hs (hh.symm.trans ht)).1, hb.trans (hs (hh.symm.trans ht)).2⟩

/-- A failure point that raises nothing touches neither the accumulator nor the bit index. -/
theorem quiet_kept : Kept (Preserves State.Quiet) :=
  Preserves.kept fun s hs ht =>
    have ⟨hrunning, _⟩ := State.failPoint_of_not_halted ht
    have ⟨_, hacc, hidx, _⟩ := s.failPoint_frame
    ⟨hacc.trans (hs hrunning).1, hidx.trans (hs hrunning).2⟩

/-- The accumulator is 0, where the core is not halted. -/
def State.AccClear (s : State) : Prop := s.halted = false → s.acc = 0

theorem accClear_kept : Kept (Preserves State.AccClear) :=
  Preserves.kept fun s hs ht =>
    have ⟨_, hacc, _⟩ := s.failPoint_frame
    hacc.trans (hs (State.failPoint_of_not_halted ht).1)

/-- Without capture the transfers leave the accumulator alone (R99). -/
theorem bitTransfers_noCapture_accClear (b : Byte) (s : State) :
    Preserves State.AccClear s (bitTransfers false b s) :=
  accClear_kept.of_bitTransfers_noCapture
    (fun u l v _ _ hu => by simpa [State.AccClear] using hu) (fun _ _ _ => id) b s

/-- What follows the eight transfers resets the bit index, and with capture the accumulator (R90). -/
theorem endByte_quiet {r : Nat} {c : Bool} {s : State} (h : c = false → s.AccClear) : (endByte r c s).Quiet := by
  intro hrun
  cases c with
  | true => exact ⟨rfl, rfl⟩
  | false => exact ⟨h rfl hrun, rfl⟩

/-- A data byte that is not cut ends with accumulator and bit index at 0; one that is cut leaves the core halted. -/
theorem shiftByte_quiet (r : Nat) (c : Bool) (b : Byte) (s : State) : Preserves State.Quiet s (shiftByte r c b s) := by
  intro hs
  have hacc : c = false → (bitTransfers c b s).AccClear := by
    rintro rfl
    exact bitTransfers_noCapture_accClear b s fun hrun => (hs hrun).1
  unfold shiftByte
  obtain ⟨hhalt, e⟩ | ⟨-, e⟩ := act_cases (endByte r c) (bitTransfers c b s) <;> rw [e]
  · exact .of_halted hhalt
  · exact endByte_quiet fun hc => accClear_kept.failPoint _ (hacc hc)

theorem EventCase.quiet {s t : State} {e : Event} (h : EventCase s e t) : Preserves State.Quiet s t := by
  have K := quiet_kept
  cases h with
  | gpioFail => exact fun _ => .of_halted rfl
  | eop => exact K.of_act fun u hu => K.of_flush (fun _ _ _ => id) (fun _ _ _ => id) hu
  | bitBang =>
    exact K.of_act fun u _ => K.of_bitBang (fun w l v _ => .quiet_of_eq (State.driveLine_halted l v w)
      (State.driveLine_acc l v w) (State.driveLine_bitIdx l v w)) _ _ _ u
  | header => exact K.of_act fun _ _ => id
  | malformed => exact K.of_act fun _ _ => id
  | data => exact K.of_act fun u _ => shiftByte_quiet _ _ _ u

/-! ## I3: at most `MTU` bytes queued -/

/-- The Reply Buffer holds at most `MTU` bytes (R24, I3). -/
def State.Room (s : State) : Prop := s.reply.length ≤ Config.mtu

theorem Preserves.room_of_eq {s t : State} (h : t.reply = s.reply) : Preserves State.Room s t :=
  fun hs => (congrArg List.length h).trans_le hs

/-- A byte is appended only where the buffer is not full (R111). -/
theorem pushReply_room (v : Byte) (s : State) : Preserves State.Room s (s.pushReply v) := by
  intro hs
  unfold State.Room at hs ⊢
  rw [State.pushReply_reply]
  split
  · exact hs
  · rename_i hfull
    have hne : s.reply.length ≠ Config.mtu := by simpa [State.replyFull] using hfull
    rw [List.length_append, List.length_singleton]
    omega

theorem room_kept : KeptByData (Preserves State.Room) where
  toKept := Preserves.kept fun s =>
    have ⟨_, _, _, hreply, _⟩ := s.failPoint_frame
    Preserves.room_of_eq hreply
  drive u l v _ _ := .room_of_eq (State.driveLine_reply l v u)
  setBitIdx _ _ _ := .room_of_eq rfl
  read _ _ := .room_of_eq rfl
  orSample _ _ _ _ := .room_of_eq rfl
  write _ _ _ := .room_of_eq rfl
  drop u c _ hu := (List.drop_sublist c u.reply).length_le.trans hu
  push u v _ := pushReply_room v u
  clear _ _ := .room_of_eq rfl

theorem EventCase.room {s t : State} {e : Event} (h : EventCase s e t) : Preserves State.Room s t :=
  h.rel room_kept (.room_of_eq rfl) (fun u l v _ => .room_of_eq (State.driveLine_reply l v u))
    (fun _ _ _ _ => .room_of_eq rfl) (fun _ _ _ _ => .room_of_eq rfl)

/-! ## Every step keeps the invariants -/

theorem EventCase.inv {s t : State} {e : Event} (h : EventCase s e t) (hs : s.Inv) : t.Inv :=
  ⟨h.legal hs.legal, h.quiet hs.quiet, h.room hs.room⟩

theorem step_inv {s t : State} (hs : s.Inv) (h : step s = .next t) : t.Inv := by
  obtain ⟨legal, quiet, room⟩ := hs
  obtain ⟨-, rfl⟩ | ⟨e, rest, -, hcase⟩ := step_case h
  · exact ⟨legal, quiet, room⟩
  · exact hcase.inv ⟨legal, quiet, room⟩

/-- Settles O22: I1, I2 and I3 are each preserved by every event, whether the step is completed or cut by GpioFail. -/
theorem everyStepKeepsInv : Obligations.EveryStepKeepsInv :=
  fun _ _ => step_inv

/-! ## I5: the flags are sticky -/

/-- No flag that is set in the first state is clear in the second (R24, I5). -/
def FlagsStay (s t : State) : Prop :=
  (s.halted = true → t.halted = true) ∧ (s.overrun = true → t.overrun = true)

theorem FlagsStay.of_eq {s t : State} (hh : t.halted = s.halted) (ho : t.overrun = s.overrun) : FlagsStay s t :=
  ⟨hh.trans, ho.trans⟩

theorem FlagsStay.driveLine (s : State) (l : Line) (v : Bool) : FlagsStay s (s.driveLine l v) :=
  .of_eq (State.driveLine_halted l v s) (State.driveLine_overrun l v s)

/-- A failure point sets `halted` or leaves it, `ReplyAppend` does so with `overrun`; no primitive clears a flag. -/
theorem flagsStay_kept : KeptByData FlagsStay where
  refl _ := .of_eq rfl rfl
  trans hst htu := ⟨htu.1 ∘ hst.1, htu.2 ∘ hst.2⟩
  failPoint s :=
    have ⟨_, _, _, _, hoverrun, _⟩ := s.failPoint_frame
    ⟨fun h => (congrArg State.halted (State.failPoint_of_halted h)).trans h, hoverrun.trans⟩
  drive u l v _ _ := .driveLine u l v
  setBitIdx _ _ _ := .of_eq rfl rfl
  read _ _ := .of_eq rfl rfl
  orSample _ _ _ _ := .of_eq rfl rfl
  write _ _ _ := .of_eq rfl rfl
  drop _ _ _ := .of_eq rfl rfl
  push u v _ := ⟨(State.pushReply_halted v u).trans, fun h => by rw [State.pushReply_overrun, h, Bool.or_true]⟩
  clear _ _ := .of_eq rfl rfl

theorem EventCase.flagsStay {s t : State} {e : Event} (h : EventCase s e t) : FlagsStay s t :=
  h.rel flagsStay_kept ⟨fun _ => rfl, id⟩ (fun u l v _ => .driveLine u l v)
    (fun _ _ _ _ => .of_eq rfl rfl) (fun _ _ _ _ => .of_eq rfl rfl)

theorem step_flagsStay {s t : State} (h : step s = .next t) : FlagsStay s t := by
  obtain ⟨-, rfl⟩ | ⟨e, rest, -, hcase⟩ := step_case h
  · exact .of_eq rfl rfl
  · exact hcase.flagsStay

/-- Settles O21: no primitive clears a flag, so no step does. -/
theorem faultFlagsAreSticky : Obligations.FaultFlagsAreSticky :=
  fun _ _ => step_flagsStay

/-! ## Where operations come from -/

/-- The operations an event may make the core perform in a `dstate` (R10, R11, R71, R90, R110). -/
inductive MayIssue : DState → Event → Op → Prop where
  | read (r : Nat) (b : Byte) (t : Bool) : MayIssue (.inShift r true) (.byte b) (.readTdo t)
  | bitBang {b : Byte} {k m d : Bool} (hc : Config.classify b = .bitBang k m d) (l : Line) (v : Bool) :
    MayIssue .idle (.byte b) (.setLine l v)
  | pulse (r : Nat) (c : Bool) (b : Byte) {l : Line} (hl : l ≠ .tms) (v : Bool) :
    MayIssue (.inShift r c) (.byte b) (.setLine l v)
  | write (d : DState) (e : Event) {xs : List Byte} {n : Nat} (hne : xs ≠ []) (hle : n ≤ xs.length) :
    MayIssue d e (.transportWrite xs n)

/-- The second trace is the first with operations of a kind behind it. -/
def Adds (P : Op → Prop) (s t : State) : Prop := ∃ ops, t.trace = s.trace ++ ops ∧ ∀ op ∈ ops, P op

section
variable {P : Op → Prop}

theorem Adds.of_eq {s t : State} (h : t.trace = s.trace) : Adds P s t :=
  ⟨[], by rw [List.append_nil, h], nofun⟩

theorem Adds.of_op {s t : State} {op : Op} (h : t.trace = s.trace ++ [op]) (hop : P op) : Adds P s t :=
  ⟨[op], h, by simpa using hop⟩

theorem Adds.trans {s t u : State} : Adds P s t → Adds P t u → Adds P s u := by
  rintro ⟨xs, ht, hxs⟩ ⟨ys, hu, hys⟩
  exact ⟨xs ++ ys, by rw [hu, ht, List.append_assoc], fun op hop => (List.mem_append.1 hop).elim (hxs op) (hys op)⟩

/-- Every operation performed between the two states is of the kind. -/
theorem Adds.of_mem_newOps {s t : State} (h : Adds P s t) {op : Op} (hop : op ∈ newOps s t) : P op := by
  obtain ⟨ops, e, hops⟩ := h
  rw [newOps, e, List.drop_left] at hop
  exact hops op hop

theorem adds_kept : Kept (Adds P) where
  refl _ := .of_eq rfl
  trans := .trans
  failPoint s :=
    have ⟨_, _, _, _, _, htrace, _⟩ := s.failPoint_frame
    .of_eq htrace

theorem Adds.driveLine {l : Line} {v : Bool} (h : P (.setLine l v)) (s : State) : Adds P s (s.driveLine l v) :=
  .of_op (State.driveLine_trace l v s) h

theorem Adds.noteWrite (h : ∀ xs n, xs ≠ [] → n ≤ xs.length → P (.transportWrite xs n)) (s : State)
    (hne : s.reply ≠ []) : Adds P s (s.noteWrite s.reply) :=
  .of_op (State.noteWrite_trace s.reply s) (h _ _ hne (s.acceptAnswer_le _))

/-- A data byte adds writes of TDI and TCK, reads and writes of the Reply Buffer (R90, R111). -/
theorem adds_keptByData (hl : ∀ l v, l ≠ .tms → P (.setLine l v)) (hr : ∀ t, P (.readTdo t))
    (hw : ∀ xs n, xs ≠ [] → n ≤ xs.length → P (.transportWrite xs n)) : KeptByData (Adds P) where
  toKept := adds_kept
  drive u l v hne _ := .driveLine (hl l v hne) u
  setBitIdx _ _ _ := .of_eq rfl
  read u _ := .of_op u.noteRead_trace (hr _)
  orSample _ _ _ _ := .of_eq rfl
  write u _ hne := .noteWrite hw u hne
  drop _ _ _ := .of_eq rfl
  push u v _ := .of_eq (State.pushReply_trace v u)
  clear _ _ := .of_eq rfl

end

/-- A data byte issues what its session allows: no read without capture (R99). -/
theorem shiftByte_adds (r : Nat) (c : Bool) (b : Byte) (s : State) :
    Adds (MayIssue (.inShift r c) (.byte b)) s (shiftByte r c b s) := by
  cases c with
  | false =>
    exact adds_kept.of_shiftByte_noCapture (fun u l v hne _ => .driveLine (.pulse r false b hne v) u)
      (fun _ _ _ => .of_eq rfl) (fun _ _ => .of_eq rfl) b s
  | true =>
    have K := adds_keptByData (P := MayIssue (.inShift r true) (.byte b)) (fun _ v hne => .pulse r true b hne v)
      (.read r b) (fun _ _ => .write _ _)
    exact K.of_shiftByte (fun _ _ => .of_eq rfl) b s

theorem EventCase.adds {s t : State} {e : Event} (h : EventCase s e t) : Adds (MayIssue s.dstate e) s t := by
  cases h with
  | gpioFail => exact .of_eq rfl
  | eop =>
    exact adds_kept.of_act fun u hu => adds_kept.of_flush (fun w _ => .noteWrite (fun _ _ => .write _ _) w)
      (fun _ _ _ => .of_eq rfl) hu
  | bitBang hd hc =>
    rw [hd]
    exact adds_kept.of_act fun u _ => adds_kept.of_bitBang (fun w l v _ => .driveLine (.bitBang hc l v) w) _ _ _ u
  | header => exact adds_kept.of_act fun _ _ => .of_eq rfl
  | malformed => exact adds_kept.of_act fun _ _ => .of_eq rfl
  | data hd =>
    rw [hd]
    exact adds_kept.of_act fun u _ => shiftByte_adds _ _ _ u

/-- An operation a step performs is one its event may issue in the present `dstate`; the adapter's read performs none. -/
theorem step_mayIssue {s t : State} (h : step s = .next t) {op : Op} (hop : op ∈ newOps s t) :
    ∃ e rest, s.input = e :: rest ∧ MayIssue s.dstate e op := by
  obtain ⟨-, rfl⟩ | ⟨e, rest, hinput, hcase⟩ := step_case h
  · simp [newOps] at hop
  · exact ⟨e, rest, hinput, hcase.adds.of_mem_newOps hop⟩

/-- Settles O25: an operation is issued by the event the step takes, and each form of it by those events alone. -/
theorem whereOperationsComeFrom : Obligations.WhereOperationsComeFrom := by
  intro s t h op hop
  obtain ⟨e, rest, hinput, hissue⟩ := step_mayIssue h hop
  generalize s.dstate = d at hissue ⊢
  cases hissue with
  | read r b t => exact ⟨r, rfl⟩
  | bitBang hc l v =>
    cases l with
    | tms => exact ⟨rfl, _, rest, _, _, _, hinput, hc⟩
    | tck => exact ⟨_, rest, hinput⟩
    | tdi => exact ⟨_, rest, hinput⟩
  | @pulse r c b l hl v =>
    cases l with
    | tms => exact absurd rfl hl
    | tck => exact ⟨b, rest, hinput⟩
    | tdi => exact ⟨b, rest, hinput⟩
  | write d e hne hle => exact ⟨hne, hle⟩

/-! ## No rule reads a latch -/

/-- From other levels the operation answers the same state but for the levels. -/
def LevelBlind (f : State → State) : Prop := ∀ s l, ∃ l', f (s.withLevels l) = (f s).withLevels l'

theorem LevelBlind.of_comm {f : State → State} (h : ∀ s l, f (s.withLevels l) = (f s).withLevels l) : LevelBlind f :=
  fun s l => ⟨l, h s l⟩

theorem LevelBlind.comp {f g : State → State} (hg : LevelBlind g) (hf : LevelBlind f) :
    LevelBlind fun s => g (f s) := by
  intro s l
  obtain ⟨l₁, e₁⟩ := hf s l
  obtain ⟨l₂, e₂⟩ := hg (f s) l₁
  exact ⟨l₂, (congrArg g e₁).trans e₂⟩

/-- GpioFail sets the levels without reading them (R134). -/
theorem levelBlind_raiseHalt : LevelBlind State.raiseHalt := fun s _ => ⟨s.raiseHalt.levels, rfl⟩

theorem levelBlind_failPoint : LevelBlind State.failPoint := by
  intro s l
  unfold State.failPoint
  rw [State.withLevels_halted, State.withLevels_gpioFail]
  cases s.halted with
  | true => exact ⟨l, rfl⟩
  | false =>
    cases s.gpioFail with
    | none => exact ⟨l, rfl⟩
    | some n =>
      cases n with
      | zero => exact levelBlind_raiseHalt s l
      | succ n => exact ⟨l, rfl⟩

theorem LevelBlind.act {f : State → State} (hf : LevelBlind f) : LevelBlind (act f) := by
  intro s l
  obtain ⟨l₁, e₁⟩ := levelBlind_failPoint s l
  unfold Machine.act
  rw [e₁, State.withLevels_halted]
  split
  · exact ⟨l₁, rfl⟩
  · exact hf _ l₁

theorem levelBlind_id : LevelBlind id := .of_comm fun _ _ => rfl

theorem levelBlind_driveLine (l : Line) (v : Bool) : LevelBlind (State.driveLine l v) := by
  intro s lv
  cases l with
  | tck => exact ⟨{ lv with tck := v }, rfl⟩
  | tms => exact ⟨{ lv with tms := v }, rfl⟩
  | tdi => exact ⟨{ lv with tdi := v }, rfl⟩

theorem levelBlind_setLine (l : Line) (v : Bool) : LevelBlind (setLine l v) := (levelBlind_driveLine l v).act

/-- The target's answer is no latch (R11): a read is as blind as what is done with its answer. -/
theorem LevelBlind.readTdo {k : Bool → State → State} (hk : ∀ t, LevelBlind (k t)) : LevelBlind (readTdo k) :=
  LevelBlind.act fun s l => hk (s.tdoAnswer 0) s.noteRead l

theorem levelBlind_bitBang (k m d : Bool) : LevelBlind (bitBang k m d) :=
  (levelBlind_setLine .tck k).comp ((levelBlind_setLine .tdi d).comp (levelBlind_setLine .tms m))

theorem levelBlind_openSession (n : Nat) (c : Bool) : LevelBlind (openSession n c) := .of_comm fun _ _ => rfl

theorem levelBlind_flush : LevelBlind flush := by
  refine .of_comm fun s l => ?_
  by_cases hr : s.reply = []
  · rw [flush_of_nil hr, flush_of_nil (s := s.withLevels l) hr]
  · rw [flush_of_ne_nil hr, flush_of_ne_nil (s := s.withLevels l) hr]
    rfl

theorem levelBlind_pushReply (v : Byte) : LevelBlind (State.pushReply v) := by
  refine .of_comm fun s l => ?_
  have hfull : (s.withLevels l).replyFull = s.replyFull := rfl
  unfold State.pushReply
  rw [hfull]
  split <;> rfl

theorem levelBlind_replyAppend (v : Byte) : LevelBlind (replyAppend v) := by
  intro s l
  cases hr : s.replyFull with
  | true =>
    rw [replyAppend_of_full hr, replyAppend_of_full (s := s.withLevels l) hr]
    exact (levelBlind_pushReply v).comp levelBlind_flush s l
  | false =>
    rw [replyAppend_of_room hr, replyAppend_of_room (s := s.withLevels l) hr]
    exact levelBlind_pushReply v s l

theorem levelBlind_sampleTdo (i : Nat) : LevelBlind (sampleTdo i) :=
  .readTdo fun _ => LevelBlind.act (.of_comm fun _ _ => rfl)

theorem levelBlind_bitTransfer (c : Bool) (b : Byte) (i : Nat) : LevelBlind (bitTransfer c b i) := by
  have hidx : LevelBlind (State.setBitIdx i) := .of_comm fun _ _ => rfl
  have hpulse := (levelBlind_setLine .tck false).comp
    ((levelBlind_setLine .tck true).comp ((levelBlind_setLine .tdi (dataBit b i)).comp hidx.act))
  cases c with
  | false => exact hpulse
  | true => exact (levelBlind_sampleTdo i).comp hpulse

theorem LevelBlind.foldl {f : State → Nat → State} (hf : ∀ i, LevelBlind fun s => f s i) (is : List Nat) :
    LevelBlind fun s => is.foldl f s := by
  induction is with
  | nil => exact levelBlind_id
  | cons i is ih => exact ih.comp (hf i)

theorem levelBlind_bitTransfers (c : Bool) (b : Byte) : LevelBlind (bitTransfers c b) :=
  .foldl (levelBlind_bitTransfer c b) _

theorem levelBlind_replyStage (c : Bool) : LevelBlind (replyStage c) := by
  cases c with
  | false => exact levelBlind_id
  | true =>
    have hclear : LevelBlind State.clearAcc := .of_comm fun _ _ => rfl
    exact fun s l => hclear.comp (levelBlind_replyAppend s.acc) s l

theorem levelBlind_endByte (r : Nat) (c : Bool) : LevelBlind (endByte r c) :=
  LevelBlind.comp (g := State.finishByte r c) (.of_comm fun _ _ => rfl) (levelBlind_replyStage c)

theorem levelBlind_shiftByte (r : Nat) (c : Bool) (b : Byte) : LevelBlind (shiftByte r c b) :=
  (levelBlind_endByte r c).act.comp (levelBlind_bitTransfers c b)

theorem levelBlind_dataByte (b : Byte) : LevelBlind (dataByte b) := by
  intro s l
  unfold dataByte
  rw [State.withLevels_dstate]
  cases s.dstate with
  | idle => exact ⟨l, rfl⟩
  | inShift r c => exact levelBlind_shiftByte r c b s l

theorem levelBlind_bodyOf (i : Instr) : LevelBlind (bodyOf i) := by
  cases i with
  | snop c => exact levelBlind_id
  | bb k m d x => exact levelBlind_bitBang k m d
  | shift n => exact levelBlind_openSession n false
  | shiftc n => exact levelBlind_openSession n true
  | data b => exact levelBlind_dataByte b

/-- The core's step on an event reads no latch: which body a byte runs depends on `dstate` and on the byte alone. -/
theorem onEvent_withLevels {e : Event} {s t : State} (h : onEvent e s = .next t) (l : Levels) :
    ∃ l', onEvent e (s.withLevels l) = .next (t.withLevels l') := by
  cases e with
  | byte b =>
    rw [onEvent, onByte_eq] at h ⊢
    cases h
    exact ((levelBlind_bodyOf (decode s.dstate.context b)).act s l).imp fun _ => congrArg Host.Outcome.next
  | eop =>
    cases h
    exact (levelBlind_flush.act s l).imp fun _ => congrArg Host.Outcome.next
  | gpioFail =>
    cases h
    exact (levelBlind_raiseHalt s l).imp fun _ => congrArg Host.Outcome.next

/-- Settles O27: every primitive answers the same state but for the levels, whatever the levels are, so a step does. -/
theorem latchesAreNeverRead : Obligations.LatchesAreNeverRead := by
  intro s t l h
  cases hi : s.input with
  | nil =>
    rw [step_nil hi] at h
    cases h
    exact ⟨l, step_nil (s := s.withLevels l) hi⟩
  | cons e rest =>
    rw [step_cons hi] at h
    rw [step_cons (s := s.withLevels l) hi]
    exact onEvent_withLevels h l

end Sys2Proof.Machine

/-! # The sequences: pending events, the trace's bounds, the Reply Buffer (spec/20_memory.md) -/

namespace Sys2Proof.Machine

/-! ## The pending events -/

/-- The same events are pending in both states. -/
def SameInput (s t : State) : Prop := t.input = s.input

/-- No primitive touches the pending events: the step alone takes one off (R31). -/
theorem sameInput_kept : KeptByData SameInput where
  refl _ := rfl
  trans hst htu := Eq.trans htu hst
  failPoint s :=
    have ⟨_, _, _, _, _, _, hinput, _⟩ := s.failPoint_frame
    hinput
  drive u l v _ _ := State.driveLine_input l v u
  setBitIdx u i _ := State.setBitIdx_input i u
  read u _ := u.noteRead_input
  orSample u t i _ := State.orSample_input t i u
  write u _ _ := State.noteWrite_input u.reply u
  drop u c _ := State.dropReply_input c u
  push u v _ := State.pushReply_input v u
  clear u _ := u.clearAcc_input

/-- The core's step on an event leaves the events behind it pending. -/
theorem EventCase.sameInput {s t : State} {e : Event} (h : EventCase s e t) : SameInput s t :=
  h.rel sameInput_kept s.raiseHalt_input (fun u l v _ => State.driveLine_input l v u)
    (fun u n c _ => openSession_input n c u) (fun u r c _ => State.finishByte_input r c u)

/-- Settles O14: the step takes the first event off, and the core's step on that event touches none of the others. -/
theorem eventsAreTakenInOrder : Obligations.EventsAreTakenInOrder := by
  intro s t e rest hinput h
  rw [step_cons hinput] at h
  exact (onEvent_case h).sameInput

/-! ## How many operations a step performs -/

/-- The trace has grown by at most `p` pin operations and `w` transport writes. -/
def Costs (p w : Nat) (s t : State) : Prop :=
  pinOps t.trace ≤ pinOps s.trace + p ∧
    (offeredWrites t.trace).length ≤ (offeredWrites s.trace).length + w

section
variable {p p' w w' : Nat} {s t u : State}

theorem Costs.of_eq (h : t.trace = s.trace) : Costs p w s t := by
  simp [Costs, h]

/-- Operations noted at the end of the trace cost what they count. -/
theorem Costs.of_append {ops : List Op} (h : t.trace = s.trace ++ ops) :
    Costs (pinOps ops) (offeredWrites ops).length s t := by
  simp [Costs, h, pinOps_append, offeredWrites_append]

theorem Costs.mono (h : Costs p w s t) (hp : p ≤ p') (hw : w ≤ w') : Costs p' w' s t := by
  obtain ⟨hpins, hwrites⟩ := h
  exact ⟨by omega, by omega⟩

/-- The costs of two changes in a row add up. -/
theorem Costs.trans (hst : Costs p w s t) (htu : Costs p' w' t u) : Costs (p + p') (w + w') s u := by
  obtain ⟨hpins, hwrites⟩ := hst
  obtain ⟨hpins', hwrites'⟩ := htu
  exact ⟨by omega, by omega⟩

/-- A statement costs no more for the failure point before it. -/
theorem Costs.of_act {f : State → State} (h : ∀ v, Costs p w v (f v)) (s : State) : Costs p w s (act f s) := by
  have ⟨_, _, _, _, _, htrace, _⟩ := s.failPoint_frame
  have hfail : Costs 0 0 s s.failPoint := .of_eq htrace
  obtain ⟨-, e⟩ | ⟨-, e⟩ := act_cases f s <;> rw [e]
  · exact hfail.mono (Nat.zero_le p) (Nat.zero_le w)
  · simpa using hfail.trans (h s.failPoint)

end

theorem setLine_costs (l : Line) (v : Bool) (s : State) : Costs 1 0 s (setLine l v s) :=
  .of_act (fun u => .of_append (State.driveLine_trace l v u)) s

theorem bitBang_costs (k m d : Bool) (s : State) : Costs 3 0 s (bitBang k m d s) :=
  ((setLine_costs .tms m _).trans (setLine_costs .tdi d _)).trans (setLine_costs .tck k _)

theorem sampleTdo_costs (i : Nat) (s : State) : Costs 1 0 s (sampleTdo i s) := by
  have hread (u : State) : Costs 1 0 u u.noteRead := .of_append u.noteRead_trace
  have hor (t : Bool) (u : State) : Costs 0 0 u (act (State.orSample t i) u) :=
    .of_act (fun v => .of_eq (State.orSample_trace t i v)) u
  exact .of_act (fun u => (hread u).trans (hor _ _)) s

/-- A bit transfer is three writes of a line and at most one read (R91). -/
theorem bitTransfer_costs (c : Bool) (b : Byte) (i : Nat) (s : State) : Costs 4 0 s (bitTransfer c b i s) := by
  have hidx : Costs 0 0 s (act (State.setBitIdx i) s) := .of_act (fun u => .of_eq (State.setBitIdx_trace i u)) s
  have hpulse := ((hidx.trans (setLine_costs .tdi (dataBit b i) _)).trans (setLine_costs .tck true _)).trans
    (setLine_costs .tck false _)
  cases c with
  | false => exact hpulse.mono (by decide) (by decide)
  | true => exact hpulse.trans (sampleTdo_costs i _)

theorem foldl_bitTransfer_costs (c : Bool) (b : Byte) (is : List Nat) (s : State) :
    Costs (4 * is.length) 0 s (is.foldl (fun s i => bitTransfer c b i s) s) := by
  induction is generalizing s with
  | nil => exact .of_eq rfl
  | cons i is ih =>
    have h := (bitTransfer_costs c b i s).trans (ih _)
    rwa [Nat.add_comm 4] at h

theorem bitTransfers_costs (c : Bool) (b : Byte) (s : State) : Costs 32 0 s (bitTransfers c b s) :=
  foldl_bitTransfer_costs c b (List.range 8) s

theorem flush_costs (s : State) : Costs 0 1 s (flush s) := by
  by_cases hr : s.reply = []
  · rw [flush_of_nil hr]
    exact .of_eq rfl
  · rw [flush_of_ne_nil hr]
    exact .of_append (State.noteWrite_trace s.reply s)

theorem replyAppend_costs (v : Byte) (s : State) : Costs 0 1 s (replyAppend v s) := by
  have hpush (u : State) : Costs 0 0 u (u.pushReply v) := .of_eq (State.pushReply_trace v u)
  cases hfull : s.replyFull with
  | true =>
    rw [replyAppend_of_full hfull]
    exact (flush_costs s).trans (hpush _)
  | false =>
    rw [replyAppend_of_room hfull]
    exact (hpush s).mono (Nat.le_refl 0) (Nat.zero_le 1)

theorem endByte_costs (r : Nat) (c : Bool) (s : State) : Costs 0 1 s (endByte r c s) := by
  cases c with
  | false => exact .of_eq rfl
  | true => exact (replyAppend_costs s.acc s).trans (p' := 0) (w' := 0) (.of_eq rfl)

/-- A data byte: eight bit transfers, then at most one write (R90). -/
theorem shiftByte_costs (r : Nat) (c : Bool) (b : Byte) (s : State) : Costs 32 1 s (shiftByte r c b s) :=
  (bitTransfers_costs c b s).trans (.of_act (endByte_costs r c) _)

/-- The data byte is the dearest event (D15). -/
theorem EventCase.costs {s t : State} {e : Event} (h : EventCase s e t) : Costs 32 1 s t := by
  cases h with
  | gpioFail => exact .of_eq s.raiseHalt_trace
  | eop => exact (Costs.of_act flush_costs s).mono (by decide) (by decide)
  | bitBang => exact (Costs.of_act (bitBang_costs _ _ _) s).mono (by decide) (by decide)
  | header => exact .of_act (fun u => .of_eq (openSession_trace _ _ u)) s
  | malformed => exact .of_act (f := id) (fun _ => .of_eq rfl) s
  | data => exact .of_act (shiftByte_costs _ _ _) s

theorem step_costs {s t : State} (h : step s = .next t) : Costs 32 1 s t := by
  obtain ⟨-, rfl⟩ | ⟨e, rest, -, hcase⟩ := step_case h
  · exact .of_eq s.readPacket_trace
  · exact hcase.costs

/-- Where the trace has only grown, what was performed is within the cost. -/
theorem Costs.newOps_le {p w : Nat} {s t : State} (h : Costs p w s t) (hgrows : TraceGrows s t) :
    pinOps (newOps s t) ≤ p ∧ (offeredWrites (newOps s t)).length ≤ w := by
  obtain ⟨hpins, hwrites⟩ := h
  rw [newOps_of_prefix hgrows, pinOps_append] at hpins
  rw [newOps_of_prefix hgrows, offeredWrites_append, List.length_append] at hwrites
  exact ⟨by omega, by omega⟩

/-! ## What a step offers to the transport -/

/-- A block and a count are offered to the transport exactly where the trace holds that write. -/
theorem mem_offeredWrites {xs : List Byte} {c : Nat} {ops : List Op} :
    (xs, c) ∈ offeredWrites ops ↔ .transportWrite xs c ∈ ops := by
  induction ops with
  | nil => simp [offeredWrites]
  | cons op ops ih => cases op <;> simp [offeredWrites, ih]

/-- A transport write is of 1 to `MTU` bytes, of which no more than offered are taken (R112, R117). -/
def Op.FitsTransport (op : Op) : Prop :=
  ∀ xs c, op = .transportWrite xs c → 1 ≤ xs.length ∧ xs.length ≤ Config.mtu ∧ c ≤ xs.length

/-- From at most `MTU` bytes queued, at most `MTU` bytes are queued and every write fits the transport. -/
def OffersFit (s t : State) : Prop := s.Room → t.Room ∧ Adds Op.FitsTransport s t

theorem OffersFit.of_eq {s t : State} (hreply : t.reply = s.reply) (htrace : t.trace = s.trace) : OffersFit s t :=
  fun hs => ⟨Preserves.room_of_eq hreply hs, .of_eq htrace⟩

theorem OffersFit.driveLine (s : State) (l : Line) (v : Bool) : OffersFit s (s.driveLine l v) :=
  fun hs => ⟨Preserves.room_of_eq (State.driveLine_reply l v s) hs, .driveLine nofun s⟩

/-- The whole Reply Buffer is offered, where it is not empty (R112). -/
theorem OffersFit.noteWrite {s : State} (hne : s.reply ≠ []) : OffersFit s (s.noteWrite s.reply) := by
  intro hs
  refine ⟨hs, .of_op (State.noteWrite_trace s.reply s) ?_⟩
  rintro xs c ⟨⟩
  exact ⟨List.length_pos_of_ne_nil hne, hs, s.acceptAnswer_le _⟩

/-- The one write among the primitives offers the Reply Buffer, and none lets the buffer outgrow `MTU` (R24, I3). -/
theorem offersFit_kept : KeptByData OffersFit where
  refl _ := .of_eq rfl rfl
  trans hst htu hs :=
    have ⟨ht, hops⟩ := hst hs
    have ⟨hu, hops'⟩ := htu ht
    ⟨hu, hops.trans hops'⟩
  failPoint s :=
    have ⟨_, _, _, hreply, _, htrace, _⟩ := s.failPoint_frame
    .of_eq hreply htrace
  drive u l v _ _ := .driveLine u l v
  setBitIdx _ _ _ := .of_eq rfl rfl
  read u _ := fun hu => ⟨hu, .of_op u.noteRead_trace nofun⟩
  orSample _ _ _ _ := .of_eq rfl rfl
  write _ _ hne := .noteWrite hne
  drop u c hu := fun hs => ⟨room_kept.drop u c hu hs, .of_eq rfl⟩
  push u v _ := fun hu => ⟨pushReply_room v u hu, .of_eq (State.pushReply_trace v u)⟩
  clear _ _ := .of_eq rfl rfl

theorem EventCase.offersFit {s t : State} {e : Event} (h : EventCase s e t) : OffersFit s t :=
  h.rel offersFit_kept (.of_eq rfl rfl) (fun u l v _ => .driveLine u l v)
    (fun _ _ _ _ => .of_eq rfl rfl) (fun _ _ _ _ => .of_eq rfl rfl)

theorem step_offersFit {s t : State} (h : step s = .next t) : OffersFit s t := by
  obtain ⟨-, rfl⟩ | ⟨e, rest, -, hcase⟩ := step_case h
  · exact .of_eq rfl rfl
  · exact hcase.offersFit

/-- Settles O26: the numbers are the cost of the dearest event, the data byte; what is offered is the Reply Buffer,
which by I3 holds at most `MTU` bytes. -/
theorem stepIsBounded : Obligations.StepIsBounded := by
  intro s t hs h
  obtain ⟨hpins, hwrites⟩ := (step_costs h).newOps_le (step_traceGrows h)
  obtain ⟨-, hfit⟩ := step_offersFit h hs.room
  exact ⟨hpins, hwrites, fun _ hw => hfit.of_mem_newOps (mem_offeredWrites.1 hw) _ _ rfl⟩

/-! ## The end of a packet -/

/-- The decoder is untouched, the Reply Buffer has lost bytes from its head at most, and the levels are the same unless
the core has halted. -/
structure DrainsOnly (s t : State) : Prop where
  dstate : t.dstate = s.dstate
  acc : t.acc = s.acc
  bitIdx : t.bitIdx = s.bitIdx
  overrun : t.overrun = s.overrun
  tdo : t.tdo = s.tdo
  reply : t.reply <:+ s.reply
  running : t.halted = false → s.halted = false ∧ t.levels = s.levels

theorem DrainsOnly.refl (s : State) : DrainsOnly s s :=
  ⟨rfl, rfl, rfl, rfl, rfl, List.suffix_rfl, fun h => ⟨h, rfl⟩⟩

theorem DrainsOnly.trans {s t u : State} (hst : DrainsOnly s t) (htu : DrainsOnly t u) : DrainsOnly s u where
  dstate := htu.dstate.trans hst.dstate
  acc := htu.acc.trans hst.acc
  bitIdx := htu.bitIdx.trans hst.bitIdx
  overrun := htu.overrun.trans hst.overrun
  tdo := htu.tdo.trans hst.tdo
  reply := htu.reply.trans hst.reply
  running hu :=
    have ⟨ht, hlevels'⟩ := htu.running hu
    have ⟨hs, hlevels⟩ := hst.running ht
    ⟨hs, hlevels'.trans hlevels⟩

/-- A failure point that raises nothing leaves the levels alone, and one that raises GpioFail the rest. -/
theorem DrainsOnly.failPoint (s : State) : DrainsOnly s s.failPoint := by
  obtain ⟨hdstate, hacc, hidx, hreply, hoverrun, -, -, htdo, -⟩ := s.failPoint_frame
  refine ⟨hdstate, hacc, hidx, hoverrun, htdo, hreply ▸ List.suffix_rfl, fun h => ?_⟩
  obtain ⟨hrunning, hsame⟩ := State.failPoint_of_not_halted h
  exact ⟨hrunning, by rw [hsame]; rfl⟩

theorem DrainsOnly.noteWrite (xs : List Byte) (s : State) : DrainsOnly s (s.noteWrite xs) :=
  ⟨rfl, rfl, rfl, rfl, rfl, List.suffix_rfl, fun h => ⟨h, rfl⟩⟩

theorem DrainsOnly.dropReply (c : Nat) (s : State) : DrainsOnly s (s.dropReply c) :=
  ⟨rfl, rfl, rfl, rfl, rfl, List.drop_suffix c s.reply, fun h => ⟨h, rfl⟩⟩

theorem drainsOnly_kept : Kept DrainsOnly := ⟨.refl, .trans, .failPoint⟩

theorem act_flush_drainsOnly (s : State) : DrainsOnly s (act flush s) :=
  drainsOnly_kept.of_act fun _ hu =>
    drainsOnly_kept.of_flush (fun v _ _ => .noteWrite v.reply v) (fun v c _ => .dropReply c v) hu

/-- Settles O49: an `EOP` is a failure point and then a `Flush`, and neither does more than drain the Reply Buffer. -/
theorem endOfPacketFrame : Obligations.EndOfPacketFrame := by
  intro s t rest hinput h
  rw [step_cons hinput] at h
  cases h
  obtain ⟨hdstate, hacc, hidx, hoverrun, htdo, hreply, hrunning⟩ := act_flush_drainsOnly (s.setInput rest)
  exact ⟨hdstate, hacc, hidx, hoverrun, htdo, hreply, fun hrun => (hrunning hrun).2⟩

end Sys2Proof.Machine

/-! # The encoding: bytes to instructions and back (spec/30_encoding.md) -/

namespace Sys2Proof.Machine

/-! ## The fields of a byte -/

/-- A bit at a place is that bit there and 0 elsewhere. -/
theorem getLsbD_bitAt (v : Bool) (i j : Nat) : (bitAt v i).getLsbD j = (decide (j < 8) && decide (j = i) && v) := by
  rw [bitAt, BitVec.getLsbD_shiftLeft, BitVec.getLsbD_ofNat, Nat.testBit_bool_toNat]
  grind

/-- Bits 5, 6 of the byte follow bits 2, 3 in the ignored field (R54). -/
theorem getLsbD_ignoredField (b : Byte) {j : Nat} (hj : j < 4) :
    (ignoredField b).getLsbD j = if j < 2 then b.getLsbD (j + 2) else b.getLsbD (j + 3) := by
  rw [ignoredField, BitVec.getLsbD_append, BitVec.getLsbD_extractLsb', BitVec.getLsbD_extractLsb']
  interval_cases j <;> rfl

/-- The count field is bits 5 to 0 (R55). -/
theorem testBit_countField (b : Byte) (j : Nat) : (countField b).testBit j = (decide (j < 6) && b.getLsbD j) := by
  rw [countField, BitVec.testBit_toNat, BitVec.getLsbD_extractLsb', Nat.zero_add]

theorem countField_eq_mod (b : Byte) : countField b = b.toNat % 64 := by
  simp [countField]

theorem getLsbD_seven_iff (b : Byte) : b.getLsbD 7 = true ↔ 128 ≤ b.toNat := by
  rw [← BitVec.testBit_toNat, Nat.testBit_eq_decide_div_mod_eq, decide_eq_true_iff]
  have := b.isLt
  omega

theorem getLsbD_six_iff (b : Byte) : b.getLsbD 6 = true ↔ b.toNat / 64 % 2 = 1 := by
  rw [← BitVec.testBit_toNat, Nat.testBit_eq_decide_div_mod_eq, decide_eq_true_iff]

/-! ## `Classify`, command by command (R57) -/

theorem classify_eq_bitBang_iff {b : Byte} {k m d : Bool} :
    Config.classify b = .bitBang k m d ↔
      b.getLsbD 7 = false ∧ b.getLsbD 0 = k ∧ b.getLsbD 1 = m ∧ b.getLsbD 4 = d := by
  unfold Config.classify
  split
  · simp_all
  · split <;> simp_all

theorem classify_eq_shiftHeader_iff {b : Byte} {n : Nat} {c : Bool} :
    Config.classify b = .shiftHeader n c ↔
      b.getLsbD 7 = true ∧ countField b ≠ 0 ∧ countField b = n ∧ b.getLsbD 6 = c := by
  unfold Config.classify
  split
  · simp_all
  · split <;> simp_all

theorem classify_eq_malformed_iff {b : Byte} :
    Config.classify b = .malformed ↔ b.getLsbD 7 = true ∧ countField b = 0 := by
  unfold Config.classify
  split
  · simp_all
  · split <;> simp_all

/-! ## What is decoded in `Idle`, command by command (R70) -/

/-- SHIFT or SHIFTC, by the capture flag. -/
def headerInstr (n : Nat) (c : Bool) : Instr := if c then .shiftc n else .shift n

theorem decode_idle_of_bitBang {b : Byte} {k m d : Bool} (h : Config.classify b = .bitBang k m d) :
    decode .idle b = .bb k m d (ignoredField b) := by
  rw [decode, decodeIdle_eq, h]

theorem decode_idle_of_shiftHeader {b : Byte} {n : Nat} {c : Bool} (h : Config.classify b = .shiftHeader n c) :
    decode .idle b = headerInstr n c := by
  rw [decode, decodeIdle_eq, h]
  rfl

theorem decode_idle_of_malformed {b : Byte} (h : Config.classify b = .malformed) :
    decode .idle b = .snop (b.getLsbD 6) := by
  rw [decode, decodeIdle_eq, h]

/-! ## The encoding, row by row (R63) -/

/-- The ignored bits are put back where they were taken from. -/
theorem placeIgnored_ignoredField (x : Byte) : placeIgnored (ignoredField x) = x &&& 0x6C := by
  ext j hj
  simp only [placeIgnored, ← BitVec.getLsbD_eq_getElem, BitVec.getLsbD_or, BitVec.getLsbD_and, getLsbD_bitAt,
    getLsbD_ignoredField x (show 0 < 4 by decide), getLsbD_ignoredField x (show 1 < 4 by decide),
    getLsbD_ignoredField x (show 2 < 4 by decide), getLsbD_ignoredField x (show 3 < 4 by decide)]
  interval_cases j <;> simp

/-- With the ignored bits taken from a byte, BB's encoding is `enc` as R63 writes it. -/
theorem encode_bb_ignoredField (k m d : Bool) (x : Byte) :
    encode (.bb k m d (ignoredField x)) =
      (x &&& 0x6C) ||| (BitVec.ofNat 8 d.toNat <<< 4) ||| (BitVec.ofNat 8 m.toNat <<< 1) |||
        BitVec.ofNat 8 k.toNat := by
  rw [encode, placeIgnored_ignoredField, bitAt, bitAt, bitAt, BitVec.shiftLeft_zero]
  rfl

/-- `0xxdxxmk`, bit 0 first (R54). -/
theorem getLsbD_encode_bb (k m d : Bool) (x : BitVec 4) {j : Nat} (hj : j < 8) :
    (encode (.bb k m d x)).getLsbD j = [k, m, x.getLsbD 0, x.getLsbD 1, d, x.getLsbD 2, x.getLsbD 3, false][j] := by
  simp only [encode, placeIgnored, BitVec.getLsbD_or, getLsbD_bitAt]
  interval_cases j <;> simp

/-- A header has bit 7 set, its capture flag in bit 6, and its count below (R55). -/
theorem getLsbD_encode_header (n : Nat) (c : Bool) {j : Nat} (hj : j < 8) :
    (encode (headerInstr n c)).getLsbD j = ((j == 7) || (j == 6 && c) || n.testBit j) := by
  cases c <;>
    simp only [headerInstr, encode, reduceIte, Bool.false_eq_true, BitVec.getLsbD_or, BitVec.getLsbD_ofNat] <;>
    interval_cases j <;> simp +decide

theorem countField_encode_header {n : Nat} (hn : n < 64) (c : Bool) :
    countField (encode (headerInstr n c)) = n := by
  refine Nat.eq_of_testBit_eq fun j => ?_
  rw [testBit_countField]
  by_cases hj : j < 6
  · have h7 : j ≠ 7 := by omega
    have h6 : j ≠ 6 := by omega
    simp [getLsbD_encode_header n c (show j < 8 by omega), hj, h7, h6]
  · have hhigh : n.testBit j = false :=
      Nat.testBit_lt_two_pow (hn.trans_le (Nat.pow_le_pow_right (n := 2) (by decide) (Nat.le_of_not_lt hj)))
    simp [hj, hhigh]

/-- A malformed header is laid out as a header with the count 0 (R56). -/
theorem encode_snop_eq_header (c : Bool) : encode (.snop c) = encode (headerInstr 0 c) := by
  cases c <;> rfl

/-! ## `Classify` of what is encoded (R63) -/

theorem classify_encode_bb (k m d : Bool) (x : BitVec 4) :
    Config.classify (encode (.bb k m d x)) = .bitBang k m d :=
  classify_eq_bitBang_iff.2 ⟨getLsbD_encode_bb k m d x (by decide), getLsbD_encode_bb k m d x (by decide),
    getLsbD_encode_bb k m d x (by decide), getLsbD_encode_bb k m d x (by decide)⟩

theorem classify_encode_header {n : Nat} (h1 : 1 ≤ n) (hn : n < 64) (c : Bool) :
    Config.classify (encode (headerInstr n c)) = .shiftHeader n c := by
  have hcount := countField_encode_header hn c
  have hsix : n.testBit 6 = false := Nat.testBit_lt_two_pow hn
  refine classify_eq_shiftHeader_iff.2 ⟨?_, by omega, hcount, ?_⟩ <;> rw [getLsbD_encode_header n c (by decide)]
  · rfl
  · rw [hsix]
    exact Bool.or_false c

theorem classify_encode_snop (c : Bool) : Config.classify (encode (.snop c)) = .malformed := by
  rw [encode_snop_eq_header]
  exact classify_eq_malformed_iff.2 ⟨getLsbD_encode_header 0 c (by decide), countField_encode_header (by decide) c⟩

/-- Settles O4: the encodings are `enc` as written, the four laws are those above, and the eight bytes are fixed. -/
theorem encodingFunction : Obligations.EncodingFunction := by
  refine ⟨encode_bb_ignoredField, fun n _ _ => ⟨rfl, rfl⟩, fun _ => rfl, fun _ => rfl, classify_encode_bb,
    fun n h1 h63 => ⟨classify_encode_header h1 (Nat.lt_succ_of_le h63) false,
      classify_encode_header h1 (Nat.lt_succ_of_le h63) true⟩, classify_encode_snop, ?_⟩
  decide

/-! ## Decode of encode -/

/-- The ignored bits are read back from their places (R54). -/
theorem ignoredField_encode_bb (k m d : Bool) (x : BitVec 4) : ignoredField (encode (.bb k m d x)) = x := by
  ext j hj
  rw [← BitVec.getLsbD_eq_getElem, ← BitVec.getLsbD_eq_getElem, getLsbD_ignoredField _ hj,
    getLsbD_encode_bb k m d x (show j + 2 < 8 by omega), getLsbD_encode_bb k m d x (show j + 3 < 8 by omega)]
  interval_cases j <;> rfl

theorem decode_encode_bb (k m d : Bool) (x : BitVec 4) : decode .idle (encode (.bb k m d x)) = .bb k m d x := by
  rw [decode_idle_of_bitBang (classify_encode_bb k m d x), ignoredField_encode_bb]

theorem decode_encode_header {n : Nat} (hn : countOk n = true) (c : Bool) :
    decode .idle (encode (headerInstr n c)) = headerInstr n c :=
  have ⟨h1, h64⟩ := (Laws.RowMatch.countOk_iff n).1 hn
  decode_idle_of_shiftHeader (classify_encode_header h1 h64 c)

theorem decode_encode_snop (c : Bool) : decode .idle (encode (.snop c)) = .snop c := by
  rw [decode_idle_of_malformed (classify_encode_snop c), encode_snop_eq_header, getLsbD_encode_header 0 c (by decide)]
  exact congrArg Instr.snop (Bool.or_false c)

/-- Settles O5: `Classify` gives back the command of each Idle row, and the bits it does not read are those that SNOP
and BB keep; a data byte is its own encoding. -/
theorem decodeOfEncode : Obligations.DecodeOfEncode := by
  intro i hwf
  cases i with
  | snop c => exact decode_encode_snop c
  | bb k m d x => exact decode_encode_bb k m d x
  | shift n => exact decode_encode_header hwf false
  | shiftc n => exact decode_encode_header hwf true
  | data b => rfl

/-! ## Encode of decode -/

/-- A byte with bit 7 clear is the encoding of its own fields (R54). -/
theorem encode_bb_fields {b : Byte} (h7 : b.getLsbD 7 = false) :
    encode (.bb (b.getLsbD 0) (b.getLsbD 1) (b.getLsbD 4) (ignoredField b)) = b := by
  ext j hj
  rw [← BitVec.getLsbD_eq_getElem, ← BitVec.getLsbD_eq_getElem, getLsbD_encode_bb _ _ _ _ hj,
    getLsbD_ignoredField b (show 0 < 4 by decide), getLsbD_ignoredField b (show 1 < 4 by decide),
    getLsbD_ignoredField b (show 2 < 4 by decide), getLsbD_ignoredField b (show 3 < 4 by decide)]
  obtain rfl | hlow : j = 7 ∨ j < 7 := by omega
  · exact h7.symm
  · interval_cases j <;> rfl

/-- A byte with bit 7 set is the encoding of its capture flag and count (R55). -/
theorem encode_header_fields {b : Byte} (h7 : b.getLsbD 7 = true) :
    encode (headerInstr (countField b) (b.getLsbD 6)) = b := by
  ext j hj
  rw [← BitVec.getLsbD_eq_getElem, ← BitVec.getLsbD_eq_getElem, getLsbD_encode_header _ _ hj, testBit_countField]
  obtain rfl | rfl | hlow : j = 7 ∨ j = 6 ∨ j < 6 := by omega
  · exact h7.symm
  · exact Bool.or_false _
  · interval_cases j <;> rfl

theorem encode_snop_field {b : Byte} (h7 : b.getLsbD 7 = true) (h0 : countField b = 0) :
    encode (.snop (b.getLsbD 6)) = b := by
  have hheader := encode_header_fields h7
  rwa [h0, ← encode_snop_eq_header] at hheader

theorem encode_decode (c : Context) (b : Byte) : encode (decode c b) = b := by
  cases c with
  | inShift => rfl
  | idle =>
    cases hc : Config.classify b with
    | bitBang k m d =>
      rw [decode_idle_of_bitBang hc]
      obtain ⟨h7, rfl, rfl, rfl⟩ := classify_eq_bitBang_iff.1 hc
      exact encode_bb_fields h7
    | shiftHeader n c =>
      rw [decode_idle_of_shiftHeader hc]
      obtain ⟨h7, -, rfl, rfl⟩ := classify_eq_shiftHeader_iff.1 hc
      exact encode_header_fields h7
    | malformed =>
      rw [decode_idle_of_malformed hc]
      obtain ⟨h7, h0⟩ := classify_eq_malformed_iff.1 hc
      exact encode_snop_field h7 h0

/-- A count that `Classify` reads from a header is one a header can declare (R57). -/
theorem countOk_of_classify_shiftHeader {b : Byte} {n : Nat} {c : Bool} (h : Config.classify b = .shiftHeader n c) :
    countOk n = true := by
  obtain ⟨-, h0, rfl, -⟩ := classify_eq_shiftHeader_iff.1 h
  exact (Laws.RowMatch.countOk_iff _).2 ⟨Nat.pos_of_ne_zero h0, Nat.lt_succ_of_le (countField_le b)⟩

theorem decode_wellFormed (c : Context) (b : Byte) : (decode c b).wellFormed = true := by
  cases c with
  | inShift => rfl
  | idle =>
    cases hc : Config.classify b with
    | bitBang k m d =>
      rw [decode_idle_of_bitBang hc]
      rfl
    | shiftHeader n c =>
      rw [decode_idle_of_shiftHeader hc]
      cases c <;> exact countOk_of_classify_shiftHeader hc
    | malformed =>
      rw [decode_idle_of_malformed hc]
      rfl

/-- Settles O6: a byte's bits are those of the fields decoded from it, and a count decoded is in range. -/
theorem encodeOfDecode : Obligations.EncodeOfDecode :=
  fun c b => ⟨encode_decode c b, decode_wellFormed c b, decode_context c b⟩

/-! ## The vectors, and `Classify` in full -/

/-- Settles O1: the bytes are fixed, so the decoder is run on each. -/
theorem listedWordsDecode : Obligations.ListedWordsDecode := by
  unfold Obligations.ListedWordsDecode
  decide

/-- The command of what is decoded in `Idle` is the one `Classify` gives. -/
theorem command_decode_idle (b : Byte) : (decode .idle b).command = some (Config.classify b) := by
  rw [decode, decodeIdle_eq]
  cases Config.classify b with
  | bitBang | malformed => rfl
  | shiftHeader n c => cases c <;> rfl

theorem le_7F_iff_classify_eq_bitBang (b : Byte) :
    b.toNat ≤ 0x7F ↔ Config.classify b = .bitBang (b.getLsbD 0) (b.getLsbD 1) (b.getLsbD 4) := by
  have hseven := getLsbD_seven_iff b
  simp only [classify_eq_bitBang_iff, and_self, and_true, ← Bool.not_eq_true, hseven]
  omega

theorem classify_eq_shiftHeader_iff_toNat (b : Byte) (c : Bool) :
    Config.classify b = .shiftHeader (b.toNat % 64) c ↔
      128 ≤ b.toNat ∧ b.toNat % 64 ≠ 0 ∧ (b.toNat / 64 % 2 = 1 ↔ c = true) := by
  rw [classify_eq_shiftHeader_iff, getLsbD_seven_iff, countField_eq_mod, ← getLsbD_six_iff, ← Bool.eq_iff_iff]
  simp

theorem classify_eq_malformed_iff_toNat (b : Byte) :
    Config.classify b = .malformed ↔ 128 ≤ b.toNat ∧ b.toNat % 64 = 0 := by
  rw [classify_eq_malformed_iff, getLsbD_seven_iff, countField_eq_mod]

/-- Each combination of levels has one bit-bang byte for every value of the four ignored bits. -/
theorem count_bitBang_bytes (k m d : Bool) :
    ((List.range 256).filter fun n => Config.classify (BitVec.ofNat 8 n) == .bitBang k m d).length = 16 := by
  revert k m d
  decide

/-- Settles O2: the decoder reads `Classify`, and the byte ranges are what bits 7 and 6 and the count say of the byte as
a number. -/
theorem decoderFollowsClassify : Obligations.DecoderFollowsClassify := by
  refine ⟨fun b => ⟨command_decode_idle b, ?_⟩, count_bitBang_bytes, le_7F_iff_classify_eq_bitBang, fun b => ?_,
    fun b => ?_, fun b => ?_⟩
  · rw [Config.classify, countField_eq_mod]
  · have := b.isLt
    rw [classify_eq_shiftHeader_iff_toNat]
    simp only [Bool.false_eq_true, iff_false]
    omega
  · have := b.isLt
    rw [classify_eq_shiftHeader_iff_toNat]
    simp only [iff_true]
    omega
  · have := b.isLt
    rw [classify_eq_malformed_iff_toNat, ← BitVec.toNat_inj, ← BitVec.toNat_inj]
    simp only [BitVec.toNat_ofNat, BitVec.ofNat_eq_ofNat]
    omega

/-! ## The rows of the opcode table (R61)

What the mask and pattern of each row ask of a byte, bit by bit, checked on all 256 of them. -/

theorem rowMask_snop (b : Byte) : rowMask rowSnop b = (b.getLsbD 7 && decide (countField b = 0)) := by
  revert b
  decide

theorem rowMask_bb (b : Byte) : rowMask rowBb b = !b.getLsbD 7 := by
  revert b
  decide

theorem rowMask_shift (b : Byte) : rowMask rowShift b = (b.getLsbD 7 && !b.getLsbD 6) := by
  revert b
  decide

theorem rowMask_shiftc (b : Byte) : rowMask rowShiftc b = (b.getLsbD 7 && b.getLsbD 6) := by
  revert b
  decide

theorem rowMask_data (b : Byte) : rowMask rowData b = true := by
  revert b
  decide

theorem row_decode_idle_of_bb {b : Byte} (h7 : b.getLsbD 7 = false) : (decode .idle b).row = rowBb := by
  rw [decode_idle_of_bitBang (classify_eq_bitBang_iff.2 ⟨h7, rfl, rfl, rfl⟩)]
  rfl

theorem row_decode_idle_of_snop {b : Byte} (h7 : b.getLsbD 7 = true) (h0 : countField b = 0) :
    (decode .idle b).row = rowSnop := by
  rw [decode_idle_of_malformed (classify_eq_malformed_iff.2 ⟨h7, h0⟩)]
  rfl

theorem row_decode_idle_of_header {b : Byte} {c : Bool} (h7 : b.getLsbD 7 = true) (h0 : countField b ≠ 0)
    (h6 : b.getLsbD 6 = c) : (decode .idle b).row = if c then rowShiftc else rowShift := by
  rw [decode_idle_of_shiftHeader (classify_eq_shiftHeader_iff.2 ⟨h7, h0, rfl, h6⟩)]
  cases c <;> rfl

/-- The row decoded matches: the byte is the encoding of an instruction of that row. -/
theorem rowMatches_decode (c : Context) (b : Byte) : rowMatches (decode c b).row c b = true := by
  have hrow : Laws.RowMatch.Statement (decode c b) := by
    cases decode c b with
    | snop c => exact Laws.RowMatch.snop c
    | bb k m d x => exact Laws.RowMatch.bb k m d x
    | shift n => exact Laws.RowMatch.shift n
    | shiftc n => exact Laws.RowMatch.shiftc n
    | data b => exact Laws.RowMatch.data b
  simpa only [encode_decode, decode_context] using hrow (decode_wellFormed c b)

/-- Of the five rows, the row decoded is the only one that matches: what a row asks of the byte makes `Classify` answer
that row's command. -/
theorem eq_row_decode_of_rowMatches {r : Row} {c : Context} {b : Byte} (hr : r ∈ opcodeRows)
    (h : rowMatches r c b = true) : r = (decode c b).row := by
  simp only [opcodeRows, List.mem_cons, List.not_mem_nil, or_false] at hr
  simp only [rowMatches, Bool.and_eq_true, decide_eq_true_eq] at h
  obtain ⟨⟨rfl, hmask⟩, hcount⟩ := h
  obtain rfl | rfl | rfl | rfl | rfl := hr
  · rw [rowMask_snop, Bool.and_eq_true, decide_eq_true_iff] at hmask
    exact (row_decode_idle_of_snop hmask.1 hmask.2).symm
  · rw [rowMask_bb, Bool.not_eq_true'] at hmask
    exact (row_decode_idle_of_bb hmask).symm
  · rw [rowMask_shift, Bool.and_eq_true, Bool.not_eq_true'] at hmask
    exact (row_decode_idle_of_header hmask.1 (of_decide_eq_true hcount) hmask.2).symm
  · rw [rowMask_shiftc, Bool.and_eq_true] at hmask
    exact (row_decode_idle_of_header hmask.1 (of_decide_eq_true hcount) hmask.2).symm
  · rfl

/-- In `Idle` the masks are tested in the table's order, DATA's not at all. -/
theorem firstRow_idle (b : Byte) :
    firstRow .idle b =
      bif rowMask rowSnop b then some rowSnop else bif rowMask rowBb b then some rowBb
      else bif rowMask rowShift b then some rowShift else bif rowMask rowShiftc b then some rowShiftc else none := rfl

/-- In a session DATA's mask alone is tested. -/
theorem firstRow_inShift (b : Byte) : firstRow .inShift b = bif rowMask rowData b then some rowData else none := rfl

/-- A decoder that tests the masks alone, SNOP's first, finds the row decoded (R61). -/
theorem firstRow_eq (c : Context) (b : Byte) : firstRow c b = some (decode c b).row := by
  cases c with
  | inShift => rw [firstRow_inShift, rowMask_data]; rfl
  | idle =>
    rw [firstRow_idle, rowMask_snop, rowMask_bb, rowMask_shift, rowMask_shiftc]
    cases h7 : b.getLsbD 7 with
    | false => rw [row_decode_idle_of_bb h7]; rfl
    | true =>
      by_cases h0 : countField b = 0
      · rw [row_decode_idle_of_snop h7 h0, decide_eq_true h0]; rfl
      · rw [row_decode_idle_of_header h7 h0 rfl, decide_eq_false h0]
        cases b.getLsbD 6 <;> rfl

/-- A malformed header passes the mask of the header with its bit 6 (R61). -/
theorem rowMask_header_of_snop {b : Byte} (h : rowMask rowSnop b = true) :
    rowMask rowShift b = true ∨ rowMask rowShiftc b = true := by
  rw [rowMask_snop, Bool.and_eq_true] at h
  rw [rowMask_shift, rowMask_shiftc, h.1]
  cases b.getLsbD 6 with
  | false => exact .inl rfl
  | true => exact .inr rfl

/-- Settles O3: the byte is the encoding of an instruction of the row decoded, and each row asks bits of it that let no
other row be decoded. -/
theorem rowsPartitionTheBytes : Obligations.RowsPartitionTheBytes :=
  fun c b => ⟨rowMatches_decode c b, fun _ => eq_row_decode_of_rowMatches, firstRow_eq c b, rowMask_header_of_snop⟩

/-! ## An instruction run directly -/

/-- Outside its context a command is refused by name. -/
theorem inContext_of_other_context {c : Context} {m : String} {body : State → State} {s : State}
    (hrun : s.halted = false) (hc : s.dstate.context ≠ c) :
    inContext c m body s = .refused (.wrongContext m) := by
  simp [inContext, hrun, hc]

/-- Settles O29: every meaning is run in the context of its row, under its row's mnemonic. -/
theorem outsideItsContextRefused : Obligations.OutsideItsContextRefused := by
  intro i s hrun hc
  rw [exec_eq, inContext_of_other_context hrun hc]

/-- Settles O33: BB's statements do not take the ignored bits, and neither does the frame they run in. -/
theorem ignoredBitsDoNothing : Obligations.IgnoredBitsDoNothing := by
  intro k m d x y s
  rw [exec_eq, exec_eq]
  rfl

/-! ## A byte placed where it is taken next -/

theorem step_presentByte (b : Byte) (s : State) : step (s.presentByte b) = exec (decode s.dstate.context b) s :=
  step_byte (State.presentByte_input b s)

/-- Settles O11: the word fits a byte, and that byte is the first event the step finds. -/
theorem placedWordIsRunNext : Obligations.PlacedWordIsRunNext := by
  intro s w hw
  refine ⟨?_, rfl⟩
  rw [State.withFetchWord, Nat.mod_eq_of_lt (show w < 2 ^ 8 from hw), step_presentByte]

/-! ## No byte traps, faults or halts (R60) -/

/-- Where no GpioFail is coming, none is coming afterwards and the core is halted only if it was before. -/
def StaysCalm (s t : State) : Prop := s.gpioFail = none → t.gpioFail = none ∧ t.halted = s.halted

theorem StaysCalm.of_eq {s t : State} (hg : t.gpioFail = s.gpioFail) (hh : t.halted = s.halted) : StaysCalm s t :=
  fun h => ⟨hg.trans h, hh⟩

theorem StaysCalm.driveLine (s : State) (l : Line) (v : Bool) : StaysCalm s (s.driveLine l v) :=
  .of_eq (State.driveLine_gpioFail l v s) (State.driveLine_halted l v s)

theorem staysCalm_kept : KeptByData StaysCalm where
  refl _ := .of_eq rfl rfl
  trans hst htu hs :=
    have ⟨ht, hhalt⟩ := hst hs
    have ⟨hu, hhalt'⟩ := htu ht
    ⟨hu, hhalt'.trans hhalt⟩
  failPoint s hs := by
    obtain e | ⟨-, hsome, -⟩ | ⟨n, -, hsome, -⟩ := s.failPoint_cases
    · rw [e]; exact ⟨hs, rfl⟩
    · exact absurd (hs.symm.trans hsome) nofun
    · exact absurd (hs.symm.trans hsome) nofun
  drive u l v _ _ := .driveLine u l v
  setBitIdx _ _ _ := .of_eq rfl rfl
  read _ _ := .of_eq rfl rfl
  orSample _ _ _ _ := .of_eq rfl rfl
  write _ _ _ := .of_eq rfl rfl
  drop _ _ _ := .of_eq rfl rfl
  push u v _ := .of_eq (State.pushReply_gpioFail v u) (State.pushReply_halted v u)
  clear _ _ := .of_eq rfl rfl

/-- Only GpioFail halts (R134), so the core's step on any other event does not. -/
theorem EventCase.staysCalm {s t : State} {e : Event} (h : EventCase s e t) (he : e ≠ .gpioFail) : StaysCalm s t := by
  have K := staysCalm_kept
  cases h with
  | gpioFail => exact absurd rfl he
  | eop => exact K.of_act fun _ hu => K.of_flush K.write K.drop hu
  | bitBang => exact K.of_act fun u _ => K.of_bitBang (fun w l v _ => .driveLine w l v) _ _ _ u
  | header => exact K.of_act fun _ _ => .of_eq rfl rfl
  | malformed => exact K.of_act fun u _ => K.refl u
  | data => exact K.of_act fun u _ => K.of_shiftByte (fun _ _ => .of_eq rfl rfl) _ u

/-- The core answers every event with a next state. -/
theorem onEvent_isNext (e : Event) (s : State) : ∃ t, onEvent e s = .next t := by
  cases e with
  | byte b => exact ⟨_, onByte_eq b s⟩
  | eop | gpioFail => exact ⟨_, rfl⟩

theorem step_isNext (s : State) : ∃ t, step s = .next t := by
  cases hi : s.input with
  | nil => exact ⟨_, step_nil hi⟩
  | cons e rest =>
    rw [step_cons hi]
    exact onEvent_isNext e _

/-- Settles O13: every event has its answer, so every step has; and no statement that a byte runs halts the core. -/
theorem noByteTrapsFaultsOrHalts : Obligations.NoByteTrapsFaultsOrHalts := by
  intro s
  obtain ⟨t, ht⟩ := step_isNext s
  refine ⟨t, ht, fun b rest hi hcalm => ?_⟩
  exact ((onEvent_case ((step_cons hi).symm.trans ht)).staysCalm nofun hcalm).2

end Sys2Proof.Machine

/-! # Dispatch, the bit-bang byte and the headers (spec/40_dispatch_bitbang.md) -/

namespace Sys2Proof.Machine

/-! ## An instruction run on a halted core, and on an undisturbed one -/

/-- A halted core does nothing with an instruction, of whatever context it is (R77). -/
theorem exec_of_halted {s : State} (h : s.halted = true) (i : Instr) : exec i s = .next s := by
  rw [exec_eq, inContext_of_halted h]

/-- Undisturbed in `Idle`, an instruction of that context runs its statements and nothing else. -/
theorem State.Undisturbed.exec_idle_eq {s : State} (h : s.Undisturbed) (hd : s.dstate = .idle) {i : Instr}
    (hi : i.context = .idle) : exec i s = .next (bodyOf i s) := by
  rw [exec_eq, h.inContext_eq (hi ▸ congrArg DState.context hd)]

/-- What an instruction answers is its statements behind a failure point: on a halted core that is nothing at all. -/
theorem exec_next_eq_act {i : Instr} {s t : State} (h : exec i s = .next t) : t = act (bodyOf i) s := by
  obtain ⟨hhalt, rfl⟩ | ⟨-, -, rfl⟩ := exec_next h
  · rw [act_of_halted _ hhalt]
  · rfl

/-! ## The dispatch of an event (R70, R77) -/

theorem decode_context_idle {s : State} (hd : s.dstate = .idle) (b : Byte) :
    decode s.dstate.context b = decode .idle b := by
  rw [hd]
  rfl

/-- Settles O12: the step is `exec` of what is decoded from the byte, in `Idle` by `Classify`, in a session DATA. -/
theorem dispatchOfAByte : Obligations.DispatchOfAByte := by
  intro s b rest hinput
  rw [step_byte hinput]
  refine ⟨fun hhalt => exec_of_halted (s := s.setInput rest) hhalt _, fun _ hd => ?_, fun _ r c hd => ?_⟩
  · rw [decode_context_idle hd]
    cases hc : Config.classify b with
    | bitBang k m d => exact ⟨ignoredField b, by rw [decode_idle_of_bitBang hc]⟩
    | shiftHeader n c => exact congrArg (exec · _) (decode_idle_of_shiftHeader hc)
    | malformed => exact ⟨b.getLsbD 6, by rw [decode_idle_of_malformed hc]⟩
  · rw [hd]
    rfl

/-- A halted core answers every event but GpioFail with the state it is in (R77). -/
theorem onEvent_of_halted {s : State} (h : s.halted = true) {e : Event} (he : e ≠ .gpioFail) :
    onEvent e s = .next s := by
  cases e with
  | byte b => exact exec_of_halted h _
  | eop => exact congrArg Host.Outcome.next (act_of_halted flush h)
  | gpioFail => exact absurd rfl he

/-- Settles O16: the step takes the event off, and the halted core ignores it. -/
theorem haltedCoreIgnoresEvents : Obligations.HaltedCoreIgnoresEvents := by
  intro s e rest hhalt hinput he
  rw [step_cons hinput]
  exact onEvent_of_halted (s := s.setInput rest) hhalt he

/-! ## The decoder's transitions (R76) -/

/-- Where a byte leads the decoder. -/
def DState.onByte (b : Byte) : DState → DState
  | .idle =>
    match Config.classify b with
    | .bitBang _ _ _ => .idle
    | .shiftHeader n c => .inShift n c
    | .malformed => .idle
  | .inShift r c => .afterByte r c

/-- A data byte that is not cut ends with its last assignment to `dstate` (R90). -/
theorem State.Undisturbed.shiftByte_dstate {s : State} (h : s.Undisturbed) (r : Nat) (c : Bool) (b : Byte) :
    (shiftByte r c b s).dstate = .afterByte r c := by
  rw [shiftByte, h.bitTransfers_eq, (State.afterTransfers_undisturbed h c b 7).act_eq]
  rfl

theorem EventCase.dstate_of_byte {s t : State} {b : Byte} (h : EventCase s (.byte b) t) (hs : s.Undisturbed) :
    t.dstate = s.dstate.onByte b := by
  cases h with
  | bitBang hd hc => rw [hs.act_eq, hs.bitBang_eq]; simp [hd, hc, DState.onByte]
  | header hd hc => rw [hs.act_eq]; simp [hd, hc, DState.onByte]
  | malformed hd hc => rw [hs.act_eq]; simp [hd, hc, DState.onByte]
  | data hd => rw [hs.act_eq, hs.shiftByte_dstate, hd]; rfl

/-- An undisturbed step on a byte takes the decoder's transition. -/
theorem step_byte_dstate {s : State} {b : Byte} {rest : List Event} (hs : s.Undisturbed)
    (hinput : s.input = .byte b :: rest) : ∃ t, step s = .next t ∧ t.dstate = s.dstate.onByte b := by
  obtain ⟨t, ht⟩ := step_isNext s
  exact ⟨t, ht, (onEvent_case ((step_cons hinput).symm.trans ht)).dstate_of_byte (hs.setInput rest)⟩

/-- Settles O23: a byte takes its transition, `EOP` only drains the Reply Buffer, and GpioFail only halts. -/
theorem transitionTable : Obligations.TransitionTable := by
  refine ⟨fun s b rest hs hinput => ?_, fun s rest hinput => ?_, fun s rest hinput => ?_⟩
  · obtain ⟨t, ht, hd⟩ := step_byte_dstate hs hinput
    refine ⟨t, ht, fun hidle => ?_, fun r c hsession hr => ?_, fun c hsession => ?_⟩
    · rw [hd, hidle]
      rfl
    · rw [hd, hsession]
      exact if_neg (by omega)
    · rw [hd, hsession]
      rfl
  · exact ⟨_, step_cons hinput, (act_flush_drainsOnly (s.setInput rest)).dstate⟩
  · exact ⟨_, step_cons hinput, rfl, rfl⟩

/-! ## Who changes TMS (R71, R90, R95) -/

/-- TMS is the same in both states, unless the second is halted. -/
def KeepsTms (s t : State) : Prop := t.halted = false → s.halted = false ∧ t.tms = s.tms

theorem KeepsTms.of_eq {s t : State} (hh : t.halted = s.halted) (htms : t.tms = s.tms) : KeepsTms s t :=
  fun h => ⟨hh.symm.trans h, htms⟩

theorem KeepsTms.driveLine {l : Line} (hl : l ≠ .tms) (v : Bool) (s : State) : KeepsTms s (s.driveLine l v) := by
  cases l with
  | tms => exact absurd rfl hl
  | tck | tdi => exact .of_eq rfl rfl

/-- No primitive of a data byte drives TMS (R95). -/
theorem keepsTms_kept : KeptByData KeepsTms where
  refl _ := .of_eq rfl rfl
  trans hst htu hu :=
    have ⟨ht, htms'⟩ := htu hu
    have ⟨hs, htms⟩ := hst ht
    ⟨hs, htms'.trans htms⟩
  failPoint s h := by
    obtain ⟨hrunning, hsame⟩ := State.failPoint_of_not_halted h
    exact ⟨hrunning, by rw [hsame]⟩
  drive u _ v hl _ := .driveLine hl v u
  setBitIdx _ _ _ := .of_eq rfl rfl
  read _ _ := .of_eq rfl rfl
  orSample _ _ _ _ := .of_eq rfl rfl
  write _ _ _ := .of_eq rfl rfl
  drop _ _ _ := .of_eq rfl rfl
  push u v _ := .of_eq (State.pushReply_halted v u) (State.pushReply_tms v u)
  clear _ _ := .of_eq rfl rfl

/-- An event keeps TMS, or it is a bit-bang byte met in `Idle`. -/
theorem EventCase.keepsTms_or_bitBang {s t : State} {e : Event} (h : EventCase s e t) :
    KeepsTms s t ∨ s.dstate = .idle ∧ ∃ b k m d, e = .byte b ∧ Config.classify b = .bitBang k m d := by
  have K := keepsTms_kept
  cases h with
  | gpioFail => exact .inl nofun
  | eop => exact .inl (K.of_act fun _ hu => K.of_flush K.write K.drop hu)
  | bitBang hd hc => exact .inr ⟨hd, _, _, _, _, rfl, hc⟩
  | header => exact .inl (K.of_act fun _ _ => .of_eq rfl rfl)
  | malformed => exact .inl (K.of_act fun u _ => K.refl u)
  | data => exact .inl (K.of_act fun u _ => K.of_shiftByte (fun _ _ => .of_eq rfl rfl) _ u)

/-- Settles O28: the adapter's read touches no line, and of the events only a bit-bang byte in `Idle` drives TMS. -/
theorem onlyBitBangChangesTms : Obligations.OnlyBitBangChangesTms := by
  intro s t h hrun hne
  obtain ⟨-, rfl⟩ | ⟨e, rest, hinput, hcase⟩ := step_case h
  · exact absurd rfl hne
  · obtain hkeeps | ⟨hd, b, k, m, d, rfl, hc⟩ := hcase.keepsTms_or_bitBang
    · exact absurd (hkeeps hrun).2 hne
    · exact ⟨hd, b, rest, k, m, d, hinput, hc⟩

/-! ## BB undisturbed (R71 to R73) -/

/-- The trace of a bit-bang byte (R71). -/
def bitBangOps (k m d : Bool) : List Op := [.setLine .tms m, .setLine .tdi d, .setLine .tck k]

/-- The state after a bit-bang byte. -/
def State.afterBitBang (k m d : Bool) (s : State) : State :=
  { s with tms := m, tdi := d, tck := k, trace := s.trace ++ bitBangOps k m d }

theorem State.Undisturbed.exec_bb_eq {s : State} (h : s.Undisturbed) (hd : s.dstate = .idle) (k m d : Bool)
    (x : BitVec 4) : exec (.bb k m d x) s = .next (s.afterBitBang k m d) := by
  rw [h.exec_idle_eq hd rfl, bodyOf, h.bitBang_eq]
  simp [State.driveLine, State.afterBitBang, bitBangOps]

theorem State.afterBitBang_levels (k m d : Bool) (s : State) : (s.afterBitBang k m d).levels = ⟨k, m, d⟩ := rfl

theorem newOps_afterBitBang (k m d : Bool) (s : State) : newOps s (s.afterBitBang k m d) = bitBangOps k m d :=
  List.drop_left

/-- TMS and TDI are driven before TCK, so they are in place at the edge, where there is one (R72). -/
theorem edges_bitBangOps (l : Levels) (k m d : Bool) :
    edges l (bitBangOps k m d) = if k = l.tck then [] else [⟨k, m, d⟩] := by
  simp [bitBangOps, edges]

/-- Settles O30: undisturbed, each of the three statements drives its line and notes its operation. -/
theorem bitBangResult : Obligations.BitBangResult :=
  fun k m d x _ hs hd => hs.exec_bb_eq hd k m d x

/-- Settles O31: of the three operations only the last drives TCK, and it makes an edge where it changes the level. -/
theorem bitBangEdges : Obligations.BitBangEdges := by
  intro k m d x s hs hd
  refine ⟨_, hs.exec_bb_eq hd k m d x, ?_⟩
  rw [newOps_afterBitBang]
  exact edges_bitBangOps s.levels k m d

/-- Settles O32: the levels after BB are its bits, so the same byte once more finds TCK at its level. -/
theorem bitBangLevelsAndIdempotence : Obligations.BitBangLevelsAndIdempotence := by
  intro k m d x s hs hd
  have hs' : (s.afterBitBang k m d).Undisturbed := hs
  refine ⟨_, _, hs.exec_bb_eq hd k m d x, rfl, hs'.exec_bb_eq hd k m d x, rfl, ?_⟩
  rw [newOps_afterBitBang, State.afterBitBang_levels, edges_bitBangOps]
  exact if_pos rfl

/-! ## The frame of BB -/

/-- Nothing has changed but the lines, the trace, the halt and the model's countdown, and in a halted core its draws. -/
structure TouchesLinesOnly (s t : State) : Prop where
  dstate : t.dstate = s.dstate
  acc : t.acc = s.acc
  bitIdx : t.bitIdx = s.bitIdx
  reply : t.reply = s.reply
  overrun : t.overrun = s.overrun
  input : t.input = s.input
  tdo : t.tdo = s.tdo
  accepts : t.accepts = s.accepts
  running : t.halted = false → s.halted = false ∧ t.draws = s.draws

theorem TouchesLinesOnly.refl (s : State) : TouchesLinesOnly s s :=
  ⟨rfl, rfl, rfl, rfl, rfl, rfl, rfl, rfl, fun h => ⟨h, rfl⟩⟩

theorem TouchesLinesOnly.trans {s t u : State} (hst : TouchesLinesOnly s t) (htu : TouchesLinesOnly t u) :
    TouchesLinesOnly s u where
  dstate := htu.dstate.trans hst.dstate
  acc := htu.acc.trans hst.acc
  bitIdx := htu.bitIdx.trans hst.bitIdx
  reply := htu.reply.trans hst.reply
  overrun := htu.overrun.trans hst.overrun
  input := htu.input.trans hst.input
  tdo := htu.tdo.trans hst.tdo
  accepts := htu.accepts.trans hst.accepts
  running hu :=
    have ⟨ht, hdraws'⟩ := htu.running hu
    have ⟨hs, hdraws⟩ := hst.running ht
    ⟨hs, hdraws'.trans hdraws⟩

/-- Only a failure point that raises GpioFail draws free values, and it halts the core. -/
theorem TouchesLinesOnly.failPoint (s : State) : TouchesLinesOnly s s.failPoint := by
  obtain ⟨hdstate, hacc, hidx, hreply, hoverrun, -, hinput, htdo, haccepts⟩ := s.failPoint_frame
  refine ⟨hdstate, hacc, hidx, hreply, hoverrun, hinput, htdo, haccepts, fun h => ?_⟩
  obtain ⟨hrunning, hsame⟩ := State.failPoint_of_not_halted h
  exact ⟨hrunning, by rw [hsame]⟩

theorem TouchesLinesOnly.driveLine (s : State) (l : Line) (v : Bool) : TouchesLinesOnly s (s.driveLine l v) := by
  cases l <;> exact ⟨rfl, rfl, rfl, rfl, rfl, rfl, rfl, rfl, fun h => ⟨h, rfl⟩⟩

theorem touchesLinesOnly_kept : Kept TouchesLinesOnly := ⟨.refl, .trans, .failPoint⟩

theorem act_bitBang_touchesLinesOnly (k m d : Bool) (s : State) : TouchesLinesOnly s (act (bitBang k m d) s) :=
  touchesLinesOnly_kept.of_act fun u _ => touchesLinesOnly_kept.of_bitBang (fun w l v _ => .driveLine w l v) k m d u

/-- Settles O34: each statement of BB drives a line or is cut by GpioFail. -/
theorem bitBangFrame : Obligations.BitBangFrame := by
  intro k m d x s t h
  cases exec_next_eq_act h
  obtain ⟨hdstate, hacc, hidx, hreply, hoverrun, hinput, htdo, haccepts, hrunning⟩ :=
    act_bitBang_touchesLinesOnly k m d s
  exact ⟨hdstate, hacc, hidx, hreply, hoverrun, hinput, htdo, haccepts, fun hrun => (hrunning hrun).2⟩

/-! ## SHIFT, SHIFTC and SNOP (R74, R75) -/

/-- Settles O35: the one statement of a header sets `dstate`. -/
theorem headerOpensASession : Obligations.HeaderOpensASession :=
  fun _ _ hs hd => ⟨hs.exec_idle_eq hd rfl, hs.exec_idle_eq hd rfl⟩

/-- Settles O36: SNOP has no statement, and the decoder is still in `Idle` for the byte after it. -/
theorem malformedHeaderDoesNothing : Obligations.MalformedHeaderDoesNothing := by
  intro c s hs hd
  refine ⟨hs.exec_idle_eq hd rfl, fun b => ?_⟩
  rw [step_presentByte, decode_context_idle hd]
  rfl

/-- SNOP, SHIFT and SHIFTC write at most `dstate`, and SNOP not even that. -/
theorem bodyOf_header {i : Instr} (hi : ∃ c n, i = .snop c ∨ i = .shift n ∨ i = .shiftc n) (s : State) :
    ∃ d, bodyOf i s = { s with dstate := d } ∧ (i.command = some .malformed → d = s.dstate) := by
  obtain ⟨c, n, rfl | rfl | rfl⟩ := hi
  · exact ⟨s.dstate, rfl, fun _ => rfl⟩
  · exact ⟨.inShift n false, rfl, nofun⟩
  · exact ⟨.inShift n true, rfl, nofun⟩

/-- Settles O37: GpioFail cuts the instruction, and the failure point has the frame; or `dstate` alone is written, on a
state that differs in the countdown only. -/
theorem headerFrame : Obligations.HeaderFrame := by
  intro i s t hi h
  rw [exec_next_eq_act h]
  obtain ⟨hdstate, hacc, hidx, hreply, hoverrun, htrace, hinput, htdo, haccepts⟩ := s.failPoint_frame
  obtain ⟨hhalt, e⟩ | ⟨hrun, e⟩ := act_cases (bodyOf i) s <;> rw [e]
  · exact ⟨hacc, hidx, hreply, hoverrun, htrace, hinput, htdo, haccepts,
      fun hrun => absurd (hhalt.symm.trans hrun) nofun, fun _ => hdstate⟩
  · obtain ⟨d, hbody, hd⟩ := bodyOf_header hi s.failPoint
    obtain ⟨-, hsame⟩ := State.failPoint_of_not_halted hrun
    rw [hbody]
    exact ⟨hacc, hidx, hreply, hoverrun, htrace, hinput, htdo, haccepts,
      fun _ => by rw [hsame]; exact ⟨rfl, rfl⟩, fun hmalformed => (hd hmalformed).trans hdstate⟩

end Sys2Proof.Machine

/-! # The shift engine: the data byte and the session (spec/41_shift_engine.md) -/

namespace Sys2Proof.Machine

/-! ## The data byte on an undisturbed state, by the room in the Reply Buffer -/

/-- In a session a data byte runs its statements and nothing else (R90). -/
theorem State.Undisturbed.exec_data_eq {s : State} (h : s.Undisturbed) {r : Nat} {c : Bool}
    (hd : s.dstate = .inShift r c) (b : Byte) : exec (.data b) s = .next (dataByte b s) :=
  h.inContext_eq (congrArg DState.context hd)

/-- The eight transfers, then what follows them, with capture or without (R90). -/
theorem State.Undisturbed.dataByte_eq_endByte {s : State} (h : s.Undisturbed) {r : Nat} {c : Bool}
    (hd : s.dstate = .inShift r c) (b : Byte) : dataByte b s = endByte r c (s.afterTransfers c b 7) := by
  simp only [dataByte, hd, shiftByte, h.bitTransfers_eq]
  exact (State.afterTransfers_undisturbed h c b 7).act_eq _

theorem State.replyFull_iff {s : State} : s.replyFull = true ↔ s.reply.length = Config.mtu := beq_iff_eq

theorem State.replyFull_eq_false_iff {s : State} : s.replyFull = false ↔ s.reply.length ≠ Config.mtu :=
  beq_eq_false_iff_ne

/-- A byte that finds room in the Reply Buffer is appended (R111). -/
theorem State.pushReply_of_room {s : State} (hr : s.replyFull = false) (v : Byte) :
    s.pushReply v = { s with reply := s.reply ++ [v] } := by
  rw [State.pushReply, hr]
  rfl

/-- With capture the accumulator ends as the eight samples, least significant first, on top of what it held (R90). -/
theorem State.afterTransfers_acc (b : Byte) (s : State) :
    (s.afterTransfers true b 7).acc = s.acc ||| packByte s.nextSamples :=
  congrArg (s.acc ||| ·) (orSamples_eight s)

/-- Settles O38: without capture the eight transfers touch the lines alone, and the byte is then finished. -/
theorem dataWithoutCapture : Obligations.DataWithoutCapture := by
  intro b r s hs hd
  rw [hs.exec_data_eq hd, hs.dataByte_noCapture_eq hd]
  rfl

/-- With room in the buffer the accumulator is appended (R90, R111). -/
theorem State.Undisturbed.dataByte_appends {s : State} (h : s.Undisturbed) {r : Nat} (hd : s.dstate = .inShift r true)
    (b : Byte) (hroom : s.replyFull = false) :
    dataByte b s =
      { s.afterTransfers true b 7 with
        dstate := .afterByte r true, acc := 0, bitIdx := 0
        reply := s.reply ++ [s.acc ||| packByte s.nextSamples] } := by
  rw [h.dataByte_capture_eq hd b hroom, State.afterTransfers_acc,
    State.pushReply_of_room (s := s.afterTransfers true b 7) hroom]
  rfl

/-- Settles O39: with room in the buffer `ReplyAppend` appends the accumulator, which holds the eight samples. -/
theorem dataWithCapture : Obligations.DataWithCapture := by
  intro b r s hs hd hlen
  rw [hs.exec_data_eq hd, hs.dataByte_appends hd b (State.replyFull_eq_false_iff.2 hlen)]
  rfl

/-! ## What a data byte sets, whatever the room -/

/-- Only the Reply Buffer, `overrun`, the trace, the settled counts and the draws depend on the room there is (R90). -/
theorem State.Undisturbed.dataByte_eq_set {s : State} (h : s.Undisturbed) {r : Nat} {c : Bool}
    (hd : s.dstate = .inShift r c) (b : Byte) :
    dataByte b s =
      { s.afterTransfers c b 7 with
        dstate := .afterByte r c, acc := if c then 0 else s.acc, bitIdx := 0, reply := (dataByte b s).reply
        overrun := (dataByte b s).overrun, trace := (dataByte b s).trace, accepts := (dataByte b s).accepts
        draws := (dataByte b s).draws } := by
  cases c with
  | false => rw [h.dataByte_noCapture_eq hd]; rfl
  | true =>
    cases hfull : s.replyFull with
    | false => rw [h.dataByte_capture_eq hd b hfull, State.pushReply]; split <;> rfl
    | true => rw [h.dataByte_full_eq hd b hfull, State.pushReply]; split <;> rfl

section
variable {s : State} {r : Nat} {c : Bool} (h : s.Undisturbed) (hd : s.dstate = .inShift r c) (b : Byte)
include h hd

theorem State.Undisturbed.dataByte_undisturbed : (dataByte b s).Undisturbed := by
  rw [h.dataByte_eq_set hd]
  exact h

theorem State.Undisturbed.dataByte_levels : (dataByte b s).levels = ⟨false, s.tms, b.getLsbD 7⟩ := by
  rw [h.dataByte_eq_set hd]
  rfl

theorem State.Undisturbed.dataByte_dstate : (dataByte b s).dstate = .afterByte r c := by
  rw [h.dataByte_eq_set hd]

theorem State.Undisturbed.dataByte_acc : (dataByte b s).acc = if c then 0 else s.acc := by
  rw [h.dataByte_eq_set hd]

end

/-! ## The trace of a data byte -/

/-- The count the transport takes where a data byte meets a full Reply Buffer: eight reads come before (R112, R117). -/
def State.takenInData (b : Byte) (s : State) : Nat := (s.afterTransfers true b 7).acceptAnswer s.reply.length

/-- What follows the eight transfers in the trace of a data byte (R91, R111). -/
def State.replyOps (c : Bool) (b : Byte) (s : State) : List Op :=
  if c && s.replyFull then [.transportWrite s.reply (s.takenInData b)] else []

theorem State.replyOps_cases (c : Bool) (b : Byte) (s : State) :
    s.replyOps c b = [] ∨
      c = true ∧ s.reply.length = Config.mtu ∧ s.replyOps c b = [.transportWrite s.reply (s.takenInData b)] := by
  unfold State.replyOps
  split
  · rename_i hc
    rw [Bool.and_eq_true, State.replyFull_iff] at hc
    exact .inr ⟨hc.1, hc.2, rfl⟩
  · exact .inl rfl

/-- The eight transfers, then what becomes of the reply byte (R91). -/
theorem State.Undisturbed.dataByte_trace {s : State} (h : s.Undisturbed) {r : Nat} {c : Bool}
    (hd : s.dstate = .inShift r c) (b : Byte) :
    (dataByte b s).trace = s.trace ++ (dataOps c b s.tdoAnswer ++ s.replyOps c b) := by
  cases c with
  | false =>
    have hnone : s.replyOps false b = [] := rfl
    rw [h.dataByte_noCapture_eq hd, hnone, List.append_nil]
    rfl
  | true =>
    cases hfull : s.replyFull with
    | false =>
      have hnone : s.replyOps true b = [] := if_neg (ne_true_of_eq_false hfull)
      rw [h.dataByte_capture_eq hd b hfull, hnone, List.append_nil]
      exact State.pushReply_trace _ _
    | true =>
      have hwrite : s.replyOps true b = [.transportWrite s.reply (s.takenInData b)] := if_pos hfull
      rw [h.dataByte_full_eq hd b hfull, hwrite, ← List.append_assoc]
      exact State.pushReply_trace _ _

theorem State.Undisturbed.newOps_dataByte {s : State} (h : s.Undisturbed) {r : Nat} {c : Bool}
    (hd : s.dstate = .inShift r c) (b : Byte) :
    newOps s (dataByte b s) = dataOps c b s.tdoAnswer ++ s.replyOps c b := by
  rw [newOps, h.dataByte_trace hd, List.drop_left]

/-- A transport write is no read and no pin operation. -/
theorem tdoReads_replyOps (c : Bool) (b : Byte) (s : State) : tdoReads (s.replyOps c b) = [] := by
  obtain h | ⟨-, -, h⟩ := s.replyOps_cases c b <;> rw [h] <;> rfl

theorem pinOps_replyOps (c : Bool) (b : Byte) (s : State) : pinOps (s.replyOps c b) = 0 := by
  obtain h | ⟨-, -, h⟩ := s.replyOps_cases c b <;> rw [h] <;> rfl

theorem pinOps_dataOps (c : Bool) (b : Byte) (t : Nat → Bool) : pinOps (dataOps c b t) = 24 + if c then 8 else 0 := by
  cases c <;> rfl

/-- Every read of a data byte is one of its eight transfers' (R91, R99). -/
theorem State.Undisturbed.tdoReads_dataByte {s : State} (h : s.Undisturbed) {r : Nat} {c : Bool}
    (hd : s.dstate = .inShift r c) (b : Byte) :
    tdoReads (newOps s (dataByte b s)) = if c then s.nextSamples else [] := by
  rw [h.newOps_dataByte hd, tdoReads_append, tdoReads_replyOps, List.append_nil]
  cases c <;> rfl

/-- Settles O41: the operations are those of the transfers and of the flush before the append, counted. -/
theorem dataTrace : Obligations.DataTrace := by
  intro b r c s hs hd
  refine ⟨_, s.replyOps c b, hs.exec_data_eq hd b, hs.newOps_dataByte hd b, ?_, ?_, ?_⟩
  · obtain hnil | ⟨hc, hlen, hwrite⟩ := s.replyOps_cases c b
    · exact .inl hnil
    · exact .inr ⟨hc, hlen, _, hwrite⟩
  · rw [hs.tdoReads_dataByte hd]
    cases c <;> rfl
  · rw [hs.newOps_dataByte hd, pinOps_append, pinOps_replyOps, pinOps_dataOps, Nat.add_zero]

/-! ## A full Reply Buffer -/

/-- A settled count is what the transport takes, cut to the length offered (R117). -/
theorem State.acceptAnswer_of_settled {s : State} {a : Nat} {rest : List Nat} (h : s.accepts = a :: rest) (len : Nat) :
    s.acceptAnswer len = min a len := by
  rw [State.acceptAnswer, h]
  rfl

/-- Where the transport took nothing, the byte is lost (R111, R119). -/
theorem State.Undisturbed.dataByte_refused {s : State} (h : s.Undisturbed) {r : Nat} (hd : s.dstate = .inShift r true)
    {b : Byte} (hfull : s.replyFull = true) (hc : s.takenInData b = 0) :
    (dataByte b s).reply = s.reply ∧ (dataByte b s).overrun = true := by
  have hstill : (((s.afterTransfers true b 7).noteWrite s.reply).dropReply (s.takenInData b)).replyFull = true := by
    rw [hc]
    exact hfull
  rw [h.dataByte_full_eq hd b hfull, ← State.takenInData, State.pushReply, if_pos hstill, hc]
  exact ⟨rfl, rfl⟩

/-- Where the transport took a byte, there is room for the new one (R111). -/
theorem State.Undisturbed.dataByte_taken {s : State} (h : s.Undisturbed) {r : Nat} (hd : s.dstate = .inShift r true)
    {b : Byte} (hfull : s.replyFull = true) (hc : 0 < s.takenInData b) :
    (dataByte b s).reply = s.reply.drop (s.takenInData b) ++ [s.acc ||| packByte s.nextSamples] ∧
      (dataByte b s).overrun = s.overrun := by
  have hlen := State.replyFull_iff.1 hfull
  have hroom : (((s.afterTransfers true b 7).noteWrite s.reply).dropReply (s.takenInData b)).replyFull = false := by
    rw [State.replyFull_eq_false_iff, State.dropReply_reply, List.length_drop]
    show s.reply.length - _ ≠ _
    have : 0 < Config.mtu := by decide
    omega
  rw [h.dataByte_full_eq hd b hfull, ← State.takenInData, State.pushReply_of_room hroom, State.afterTransfers_acc]
  exact ⟨rfl, rfl⟩

/-- Settles O40: the flush drops the bytes taken, so the new byte finds room exactly where at least one was taken. -/
theorem dataWithAFullBuffer : Obligations.DataWithAFullBuffer := by
  intro b r s hs hd hlen
  have hfull := State.replyFull_iff.2 hlen
  have hops : s.replyOps true b = [.transportWrite s.reply (s.takenInData b)] := if_pos hfull
  have htdo : (dataByte b s).tdo = s.tdo.drop 8 := by rw [hs.dataByte_eq_set hd]; rfl
  have hidx : (dataByte b s).bitIdx = 0 := by rw [hs.dataByte_eq_set hd]
  have hinput : (dataByte b s).input = s.input := by rw [hs.dataByte_eq_set hd]; rfl
  have haccepts : (dataByte b s).accepts = s.accepts.drop 1 := by
    rw [hs.dataByte_full_eq hd b hfull]
    exact State.pushReply_accepts _ _
  refine ⟨s.takenInData b, _, hs.exec_data_eq hd b, hlen ▸ State.acceptAnswer_le _ _, fun a rest ha => ?_, haccepts,
    hops ▸ hs.newOps_dataByte hd b, hs.dataByte_refused hd hfull, hs.dataByte_taken hd hfull, hs.dataByte_levels hd b,
    hs.dataByte_acc hd b, hidx, htdo, hinput, hs.dataByte_undisturbed hd b, hs.dataByte_dstate hd b⟩
  rw [← hlen]
  exact State.acceptAnswer_of_settled (s := s.afterTransfers true b 7) ha _

/-! ## The reply byte (R92) -/

/-- The first sample is bit 0, the others follow. -/
theorem getLsbD_packByte (ts : List Bool) {i : Nat} (hi : i < 8) : (packByte ts).getLsbD i = ts.getD i false := by
  induction ts generalizing i with
  | nil => simp [packByte]
  | cons t ts ih =>
    cases i with
    | zero => cases t <;> simp [packByte]
    | succ i =>
      rw [packByte, BitVec.getLsbD_or, BitVec.getLsbD_shiftLeft, BitVec.getLsbD_ofNat, Nat.add_sub_cancel,
        ih (by omega), Nat.testBit_bool_toNat]
      simp [hi]

theorem getLsbD_packByte_nextSamples (s : State) {i : Nat} (hi : i < 8) :
    (packByte s.nextSamples).getLsbD i = s.tdoAnswer i := by
  rw [getLsbD_packByte _ hi, State.nextSamples]
  simp [hi]

/-- As a number, a sample more doubles what was packed and adds itself: it goes below it. -/
theorem packByte_cons_toNat {ts : List Bool} (t : Bool) (hts : ts.length < 8) :
    (packByte (t :: ts)).toNat = 2 * (packByte ts).toNat + t.toNat := by
  rw [← Nat.bit_val]
  refine Nat.eq_of_testBit_eq fun i => ?_
  rw [BitVec.testBit_toNat]
  cases i with
  | zero => rw [getLsbD_packByte _ (by decide), Nat.testBit_bit_zero]; rfl
  | succ i =>
    rw [Nat.testBit_bit_succ, BitVec.testBit_toNat]
    by_cases hi : i < 7
    · rw [getLsbD_packByte _ (show i + 1 < 8 by omega), getLsbD_packByte _ (show i < 8 by omega), List.getD_cons_succ]
    · rw [BitVec.getLsbD_of_ge _ _ (by omega)]
      by_cases hlast : i < 8
      · rw [getLsbD_packByte _ hlast, List.getD_eq_default _ _ (by omega)]
      · rw [BitVec.getLsbD_of_ge _ _ (by omega)]

/-- Samples in their places, as a number (R33, R92). -/
theorem packByte_toNat {ts : List Bool} (hts : ts.length ≤ 8) :
    (packByte ts).toNat = ((List.range ts.length).map fun i => 2 ^ i * (ts.getD i false).toNat).sum := by
  induction ts with
  | nil => rfl
  | cons t ts ih =>
    have hplace (i : Nat) :
        2 * (2 ^ i * (ts.getD i false).toNat) = 2 ^ (i + 1) * ((t :: ts).getD (i + 1) false).toNat := by
      rw [List.getD_cons_succ, Nat.pow_succ', Nat.mul_assoc]
    rw [packByte_cons_toNat t hts, ih (Nat.le_of_succ_le hts), ← List.sum_map_mul_left, List.length_cons,
      List.range_succ_eq_map, List.map_cons, List.map_map, List.sum_cons, Nat.add_comm]
    simp only [hplace]
    simp [Function.comp_def]

/-- The byte a data byte appends is its eight samples on top of the accumulator, unless it is lost (R90, R119). -/
theorem State.Undisturbed.dataByte_reply {s : State} (h : s.Undisturbed) {r : Nat} (hd : s.dstate = .inShift r true)
    {b : Byte} (hkept : s.reply.length = Config.mtu → s.takenInData b ≠ 0) :
    ∃ kept, (dataByte b s).reply = kept ++ [s.acc ||| packByte s.nextSamples] ∧ kept <:+ s.reply := by
  cases hfull : s.replyFull with
  | false => exact ⟨s.reply, congrArg State.reply (h.dataByte_appends hd b hfull), List.suffix_rfl⟩
  | true =>
    have hpos := Nat.pos_of_ne_zero (hkept (State.replyFull_iff.1 hfull))
    exact ⟨_, (h.dataByte_taken hd hfull hpos).1, List.drop_suffix _ _⟩

/-- Settles O42: the accumulator starts at 0, so the byte appended is the eight samples alone. -/
theorem replyByteIsTheSamples : Obligations.ReplyByteIsTheSamples := by
  intro b r s t hs hd hacc ht hkept
  obtain rfl : dataByte b s = t := by
    rw [hs.exec_data_eq hd] at ht
    exact Host.Outcome.next.inj ht
  rw [hs.newOps_dataByte hd] at hkept
  obtain ⟨kept, hreply, hsuffix⟩ := hs.dataByte_reply (b := b) hd fun hlen hzero => hkept hlen (by
    rw [State.replyOps, State.replyFull_iff.2 hlen, hzero]
    simp)
  rw [hacc, show (0 : Byte) ||| packByte s.nextSamples = packByte s.nextSamples from BitVec.zero_or] at hreply
  exact ⟨kept, _, hreply, hsuffix, hs.tdoReads_dataByte hd b, fun i => getLsbD_packByte_nextSamples s,
    packByte_toNat (ts := s.nextSamples) (Nat.le_refl 8)⟩

/-! ## The edges of TCK in a data byte (R98) -/

/-- A transfer makes a rising edge where TCK was low, and a falling one, both with the TDI level of the transfer. -/
theorem edges_transferOps (l : Levels) (c d t : Bool) (ops : List Op) :
    edges l (transferOps c d t ++ ops) =
      (if l.tck then [] else [⟨true, l.tms, d⟩]) ++ ⟨false, l.tms, d⟩ :: edges ⟨false, l.tms, d⟩ ops := by
  obtain ⟨tck, tms, tdi⟩ := l
  cases tck <;> cases c <;> simp [transferOps, edges]

/-- Met with TCK low, every transfer makes both edges. -/
theorem edges_transfers (c m d₀ : Bool) (d t : Nat → Bool) {tail : List Op} (htail : ∀ l, edges l tail = [])
    (is : List Nat) :
    edges ⟨false, m, d₀⟩ ((is.flatMap fun i => transferOps c (d i) (t i)) ++ tail) =
      is.flatMap fun i => [⟨true, m, d i⟩, ⟨false, m, d i⟩] := by
  induction is generalizing d₀ with
  | nil => exact htail _
  | cons i is ih =>
    rw [List.flatMap_cons, List.append_assoc, edges_transferOps, ih]
    rfl

theorem edges_replyOps (c : Bool) (b : Byte) (s : State) (l : Levels) : edges l (s.replyOps c b) = [] := by
  obtain h | ⟨-, -, h⟩ := s.replyOps_cases c b <;> rw [h] <;> rfl

/-- Transfer 0 meets TCK as the byte does, each of the others meets it low. -/
theorem State.Undisturbed.edges_dataByte {s : State} (h : s.Undisturbed) {r : Nat} {c : Bool}
    (hd : s.dstate = .inShift r c) (b : Byte) :
    edges s.levels (newOps s (dataByte b s)) =
      (if s.tck then [] else [⟨true, s.tms, b.getLsbD 0⟩]) ++ ⟨false, s.tms, b.getLsbD 0⟩ ::
        (List.range 7).flatMap fun i => [⟨true, s.tms, b.getLsbD (i + 1)⟩, ⟨false, s.tms, b.getLsbD (i + 1)⟩] := by
  rw [h.newOps_dataByte hd, dataOps, List.range_succ_eq_map, List.flatMap_cons, List.flatMap_map, List.append_assoc,
    edges_transferOps, edges_transfers _ _ _ _ _ (edges_replyOps c b s)]
  rfl

/-- Settles O44: of the edges listed those that rise are counted, with TCK high and with TCK low. -/
theorem tckHighLosesAnEdge : Obligations.TckHighLosesAnEdge := by
  intro b r c s hs hd
  have hedges := hs.edges_dataByte hd b
  refine ⟨_, hs.exec_data_eq hd b, ?_, hedges⟩
  rw [risingEdges, hedges]
  cases s.tck <;> rfl

/-! ## The frame of DATA -/

/-- From any state, DATA in a session is its statements behind a failure point. -/
theorem exec_data_next {b : Byte} {s t : State} (ht : exec (.data b) s = .next t) {r : Nat} {c : Bool}
    (hd : s.dstate = .inShift r c) : t = act (shiftByte r c b) s :=
  (exec_next_eq_act ht).trans (act_dataByte hd b)

/-- Outside a session DATA answers a next state only on a halted core, which does nothing. -/
theorem exec_data_idle_next {b : Byte} {s t : State} (ht : exec (.data b) s = .next t) (hd : s.dstate = .idle) :
    t = s := by
  obtain ⟨-, rfl⟩ | ⟨-, hcontext, -⟩ := exec_next ht
  · rfl
  · rw [hd] at hcontext
    exact absurd hcontext nofun

/-- What every primitive of a data byte keeps, DATA keeps. -/
theorem KeptByData.of_exec_data {R : State → State → Prop} (K : KeptByData R)
    (hf : ∀ (u : State) r c, u.halted = false → R u (u.finishByte r c)) {b : Byte} {s t : State}
    (ht : exec (.data b) s = .next t) : R s t := by
  cases hd : s.dstate with
  | idle => rw [exec_data_idle_next ht hd]; exact K.refl s
  | inShift r c =>
    rw [exec_data_next ht hd]
    exact K.of_act fun u _ => K.of_shiftByte (fun w hw => hf w r c hw) b u

/-- Reply Buffer, `overrun` and settled counts are the same in both states. -/
structure KeepsReply (s t : State) : Prop where
  reply : t.reply = s.reply
  overrun : t.overrun = s.overrun
  accepts : t.accepts = s.accepts

theorem keepsReply_kept : Kept KeepsReply where
  refl _ := ⟨rfl, rfl, rfl⟩
  trans hst htu :=
    ⟨htu.reply.trans hst.reply, htu.overrun.trans hst.overrun, htu.accepts.trans hst.accepts⟩
  failPoint s :=
    have ⟨_, _, _, hreply, hoverrun, _, _, _, haccepts⟩ := s.failPoint_frame
    ⟨hreply, hoverrun, haccepts⟩

theorem KeepsReply.driveLine (s : State) (l : Line) (v : Bool) : KeepsReply s (s.driveLine l v) :=
  ⟨State.driveLine_reply l v s, State.driveLine_overrun l v s, State.driveLine_accepts l v s⟩

/-- The eight transfers do not come near the Reply Buffer (R91). -/
theorem bitTransfers_keepsReply (c : Bool) (b : Byte) (s : State) : KeepsReply s (bitTransfers c b s) :=
  keepsReply_kept.of_foldl (fun u i => keepsReply_kept.of_bitTransfer (fun w l v _ _ => .driveLine w l v)
    (fun _ _ _ => ⟨rfl, rfl, rfl⟩) (fun _ _ _ => ⟨rfl, rfl, rfl⟩) (fun _ _ _ _ _ => ⟨rfl, rfl, rfl⟩) b i u) _ s

/-- The Reply Buffer has only grown at its tail, with nothing lost and no count used. -/
structure GrowsReply (s t : State) : Prop where
  overrun : t.overrun = s.overrun
  accepts : t.accepts = s.accepts
  reply : s.reply <+: t.reply

theorem KeepsReply.grows {s t u : State} (h : KeepsReply s t) (hg : GrowsReply t u) : GrowsReply s u :=
  ⟨hg.overrun.trans h.overrun, hg.accepts.trans h.accepts, h.reply ▸ hg.reply⟩

theorem GrowsReply.refl (s : State) : GrowsReply s s := ⟨rfl, rfl, List.prefix_rfl⟩

/-- Where there is room, the end of a data byte appends at most (R90, R111). -/
theorem endByte_growsReply {s : State} (hroom : s.replyFull = false) (r : Nat) (c : Bool) :
    GrowsReply s (endByte r c s) := by
  cases c with
  | false => exact ⟨rfl, rfl, List.prefix_rfl⟩
  | true =>
    rw [endByte, replyStage_true, replyAppend_of_room hroom, State.pushReply_of_room hroom]
    exact ⟨rfl, rfl, List.prefix_append _ _⟩

/-- A data byte met with room, cut by GpioFail or not. -/
theorem act_shiftByte_growsReply {s : State} (hlen : s.reply.length ≠ Config.mtu) (r : Nat) (c : Bool) (b : Byte) :
    GrowsReply s (act (shiftByte r c b) s) := by
  have hcut := keepsReply_kept.failPoint s
  obtain ⟨-, e⟩ | ⟨-, e⟩ := act_cases (shiftByte r c b) s <;> rw [e]
  · exact hcut.grows (.refl _)
  · have htransfers := keepsReply_kept.trans hcut (bitTransfers_keepsReply c b _)
    have hbefore := keepsReply_kept.trans htransfers (keepsReply_kept.failPoint _)
    obtain ⟨-, e⟩ | ⟨-, e⟩ := act_cases (endByte r c) (bitTransfers c b s.failPoint) <;> rw [shiftByte, e]
    · exact hbefore.grows (.refl _)
    · exact hbefore.grows (endByte_growsReply (State.replyFull_eq_false_iff.2 (hbefore.reply ▸ hlen)) r c)

/-- Nothing a capture uses has changed, and draws are made by a GpioFail alone (R99). -/
structure CapturesNothing (s t : State) : Prop where
  acc : t.acc = s.acc
  tdo : t.tdo = s.tdo
  keepsReply : KeepsReply s t
  running : t.halted = false → s.halted = false ∧ t.draws = s.draws

theorem CapturesNothing.of_linesOnly {s t : State} (h : TouchesLinesOnly s t) : CapturesNothing s t :=
  ⟨h.acc, h.tdo, ⟨h.reply, h.overrun, h.accepts⟩, h.running⟩

theorem capturesNothing_kept : Kept CapturesNothing where
  refl s := .of_linesOnly (.refl s)
  trans hst htu :=
    ⟨htu.acc.trans hst.acc, htu.tdo.trans hst.tdo, keepsReply_kept.trans hst.keepsReply htu.keepsReply, fun hu =>
      have ⟨ht, hdraws'⟩ := htu.running hu
      have ⟨hs, hdraws⟩ := hst.running ht
      ⟨hs, hdraws'.trans hdraws⟩⟩
  failPoint s := .of_linesOnly (.failPoint s)

theorem act_shiftByte_capturesNothing (r : Nat) (b : Byte) (s : State) :
    CapturesNothing s (act (shiftByte r false b) s) :=
  capturesNothing_kept.of_act fun u _ => capturesNothing_kept.of_shiftByte_noCapture
    (fun w l v _ _ => .of_linesOnly (.driveLine w l v)) (fun _ _ _ => ⟨rfl, rfl, ⟨rfl, rfl, rfl⟩, fun h => ⟨h, rfl⟩⟩)
    (fun _ _ => ⟨rfl, rfl, ⟨rfl, rfl, rfl⟩, fun h => ⟨h, rfl⟩⟩) b u

/-- Settles O45: each primitive keeps the events and TMS; with room the Reply Buffer is appended to, once; and without
capture no read, append or draw is made. -/
theorem dataFrame : Obligations.DataFrame := by
  intro b s t ht
  have hinput : SameInput s t := sameInput_kept.of_exec_data (fun u r c _ => State.finishByte_input r c u) ht
  have htms : KeepsTms s t := keepsTms_kept.of_exec_data (fun _ _ _ _ => .of_eq rfl rfl) ht
  refine ⟨hinput, fun hrun => (htms hrun).2, fun hlen => ?_, fun r hd => ?_⟩
  · have hgrows : GrowsReply s t := by
      cases hd : s.dstate with
      | idle => rw [exec_data_idle_next ht hd]; exact .refl s
      | inShift r c => rw [exec_data_next ht hd]; exact act_shiftByte_growsReply hlen r c b
    exact ⟨hgrows.overrun, hgrows.accepts, hgrows.reply⟩
  · rw [exec_data_next ht hd]
    obtain ⟨hacc, htdo, ⟨hreply, hoverrun, haccepts⟩, hrunning⟩ := act_shiftByte_capturesNothing r b s
    exact ⟨hacc, hreply, hoverrun, htdo, haccepts, fun hrun => (hrunning hrun).2⟩

/-! ## A session, event by event (R93, R94, R36) -/

/-- A session with `n` bytes to come; with none it is closed. -/
def DState.session (n : Nat) (c : Bool) : DState := if n = 0 then .idle else .inShift n c

theorem DState.session_of_pos {n : Nat} (hn : 0 < n) (c : Bool) : DState.session n c = .inShift n c :=
  if_neg (Nat.ne_of_gt hn)

theorem DState.afterByte_eq_session (r : Nat) (c : Bool) : DState.afterByte r c = .session (r - 1) c := rfl

/-- The core's steps inside a session on bytes and packet ends, undisturbed: each byte is data. -/
inductive SessionRun (c : Bool) : List Event → State → State → Prop where
  | nil (s : State) : SessionRun c [] s s
  | byte {b : Byte} {es : List Event} {r : Nat} {s t : State} (hs : s.Undisturbed) (hd : s.dstate = .inShift r c)
    (hrun : SessionRun c es (dataByte b s) t) : SessionRun c (.byte b :: es) s t
  | eop {es : List Event} {s t : State} (hs : s.Undisturbed) (hrun : SessionRun c es (flush s) t) :
    SessionRun c (.eop :: es) s t

theorem State.Undisturbed.onEvent_byte_eq {s : State} (h : s.Undisturbed) {r : Nat} {c : Bool}
    (hd : s.dstate = .inShift r c) (b : Byte) : onEvent (.byte b) s = .next (dataByte b s) := by
  rw [onEvent, onByte, hd]
  exact h.exec_data_eq hd b

theorem State.Undisturbed.onEvent_eop_eq {s : State} (h : s.Undisturbed) : onEvent .eop s = .next (flush s) :=
  congrArg Host.Outcome.next (h.act_eq flush)

theorem State.Undisturbed.flush_undisturbed {s : State} (h : s.Undisturbed) : (flush s).Undisturbed :=
  ⟨(flush_halted s).trans h.1, (flush_gpioFail s).trans h.2⟩

theorem State.Undisturbed.flush_drainsOnly {s : State} (h : s.Undisturbed) : DrainsOnly s (flush s) :=
  h.act_eq flush ▸ act_flush_drainsOnly s

/-- Events with no more bytes than are to come run inside the session, and each byte leaves one less to come. -/
theorem sessionRun_of_byteCount_le {n : Nat} {c : Bool} {es : List Event} {s : State} (hs : s.Undisturbed)
    (hd : s.dstate = .session n c) (hno : noGpioFail es = true) (hle : byteCount es ≤ n) :
    ∃ t, feed es s = .next t ∧ SessionRun c es s t ∧ t.dstate = .session (n - byteCount es) c := by
  induction es generalizing n s with
  | nil => exact ⟨s, rfl, .nil s, hd⟩
  | cons e es ih =>
    cases e with
    | gpioFail => exact absurd hno nofun
    | eop =>
      obtain ⟨t, ht, hrun, hdt⟩ := ih hs.flush_undisturbed (hs.flush_drainsOnly.dstate.trans hd) hno hle
      exact ⟨t, (feed_cons hs.onEvent_eop_eq).trans ht, .eop hs hrun, hdt⟩
    | byte b =>
      have hpos : 0 < n := Nat.zero_lt_of_lt hle
      rw [DState.session_of_pos hpos] at hd
      obtain ⟨t, ht, hrun, hdt⟩ :=
        ih (hs.dataByte_undisturbed hd b) ((hs.dataByte_dstate hd b).trans (DState.afterByte_eq_session n c)) hno
          (Nat.le_sub_one_of_lt hle)
      refine ⟨t, (feed_cons (hs.onEvent_byte_eq hd b)).trans ht, .byte hs hd hrun, ?_⟩
      rw [hdt, byteCount, Nat.sub_sub, Nat.add_comm 1]

/-- A header of either kind opens its session (R74). -/
theorem State.Undisturbed.onEvent_header_eq {s : State} (h : s.Undisturbed) (hd : s.dstate = .idle) {n : Nat}
    (hn : countOk n = true) (c : Bool) :
    onEvent (.byte (encode (headerInstr n c))) s = .next (openSession n c s) := by
  rw [onEvent, onByte, decode_context_idle hd, decode_encode_header hn]
  cases c <;> exact h.exec_idle_eq hd rfl

/-- A header, then events with no more bytes than its count. -/
theorem sessionRun_of_header {n : Nat} {c : Bool} {es : List Event} {s : State} (hn : countOk n = true)
    (hs : s.Undisturbed) (hd : s.dstate = .idle) (hno : noGpioFail es = true) (hle : byteCount es ≤ n) :
    ∃ t, feed (.byte (encode (headerInstr n c)) :: es) s = .next t ∧ SessionRun c es (openSession n c s) t ∧
      t.dstate = .session (n - byteCount es) c := by
  have hpos := ((Laws.RowMatch.countOk_iff n).1 hn).1
  rw [feed_cons (hs.onEvent_header_eq hd hn c)]
  exact sessionRun_of_byteCount_le (s := openSession n c s) hs (DState.session_of_pos hpos c).symm hno hle

/-! ## The lines through a session (R95) -/

theorem SessionRun.tms_eq {c : Bool} {es : List Event} {s t : State} (h : SessionRun c es s t) : t.tms = s.tms := by
  induction h with
  | nil => rfl
  | byte hs hd _ ih => exact ih.trans (congrArg Levels.tms (hs.dataByte_levels hd _))
  | eop hs _ ih =>
    have hrun := hs.flush_undisturbed.1
    exact ih.trans (congrArg Levels.tms (hs.flush_drainsOnly.running hrun).2)

/-- An undisturbed event leaves the levels, or is one that may change them. -/
theorem EventCase.levels_eq_or {e : Event} {s t : State} (h : EventCase s e t) (hs : s.Undisturbed) :
    t.levels = s.levels ∨ e = .gpioFail ∨ ∃ b, e = .byte b ∧ ((∃ r c, s.dstate = .inShift r c) ∨
      (s.dstate = .idle ∧ ∃ k m d, Config.classify b = .bitBang k m d)) := by
  cases h with
  | gpioFail => exact .inr (.inl rfl)
  | eop =>
    rw [hs.act_eq]
    exact .inl (hs.flush_drainsOnly.running hs.flush_undisturbed.1).2
  | bitBang hd hc => exact .inr (.inr ⟨_, rfl, .inr ⟨hd, _, _, _, hc⟩⟩)
  | header => rw [hs.act_eq]; exact .inl rfl
  | malformed => rw [hs.act_eq]; exact .inl rfl
  | data hd => exact .inr (.inr ⟨_, rfl, .inl ⟨_, _, hd⟩⟩)

/-- Settles O43: the last transfer sets TDI and TCK, only the events listed drive a line, and in a session none drives
TMS. -/
theorem linesAfterAData : Obligations.LinesAfterAData := by
  refine ⟨fun b r c s hs hd => ⟨_, hs.exec_data_eq hd b, hs.dataByte_levels hd b⟩, ?_, ?_⟩
  · intro s t e rest hs hinput ht hne
    have hcase := onEvent_case ((step_cons hinput).symm.trans ht)
    exact (hcase.levels_eq_or (hs.setInput rest)).resolve_left hne
  · intro n c evs s t hn hs hd hno hle ht
    obtain ⟨u, hu, hrun, -⟩ := sessionRun_of_header (c := c) hn hs hd hno hle
    obtain rfl : u = t := Host.Outcome.next.inj (hu.symm.trans ht)
    exact hrun.tms_eq

/-! ## What a session reads and replies (R93) -/

theorem State.Undisturbed.dataByte_traceGrows {s : State} (h : s.Undisturbed) {r : Nat} {c : Bool}
    (hd : s.dstate = .inShift r c) (b : Byte) : TraceGrows s (dataByte b s) :=
  .of_append (h.dataByte_trace hd b)

theorem State.Undisturbed.flush_traceGrows {s : State} (h : s.Undisturbed) : TraceGrows s (flush s) :=
  (onEvent_case h.onEvent_eop_eq).traceGrows

theorem SessionRun.traceGrows {c : Bool} {es : List Event} {s t : State} (h : SessionRun c es s t) :
    TraceGrows s t := by
  induction h with
  | nil s => exact .of_eq rfl
  | byte hs hd _ ih => exact (hs.dataByte_traceGrows hd _).trans ih
  | eop hs _ ih => exact hs.flush_traceGrows.trans ih

section
variable {c : Bool} {es : List Event} {s t : State} (hs : s.Undisturbed)
include hs

theorem SessionRun.newOps_byte {b : Byte} {r : Nat} (hd : s.dstate = .inShift r c)
    (h : SessionRun c es (dataByte b s) t) : newOps s t = newOps s (dataByte b s) ++ newOps (dataByte b s) t :=
  newOps_trans (hs.dataByte_traceGrows hd b) h.traceGrows

theorem SessionRun.newOps_eop (h : SessionRun c es (flush s) t) :
    newOps s t = newOps s (flush s) ++ newOps (flush s) t :=
  newOps_trans hs.flush_traceGrows h.traceGrows

end

/-- A flush reads nothing (R112). -/
theorem tdoReads_flush (s : State) : tdoReads (newOps s (flush s)) = [] := by
  by_cases hr : s.reply = []
  · simp [flush_of_nil hr, newOps, tdoReads]
  · simp [flush_of_ne_nil hr, newOps, tdoReads]

/-- With capture each byte makes eight reads, without none; a packet end makes none. -/
theorem SessionRun.tdoReads_length {c : Bool} {es : List Event} {s t : State} (h : SessionRun c es s t) :
    (tdoReads (newOps s t)).length = if c then 8 * byteCount es else 0 := by
  induction h with
  | nil s => cases c <;> simp [newOps, tdoReads, byteCount]
  | byte hs hd hrun ih =>
    rw [hrun.newOps_byte hs hd, tdoReads_append, List.length_append, ih, hs.tdoReads_dataByte hd]
    cases c with
    | false => rfl
    | true => exact Nat.add_comm _ _
  | eop hs hrun ih => rw [hrun.newOps_eop hs, tdoReads_append, tdoReads_flush, List.nil_append, ih, byteCount]

/-- Every byte captured so far that has not been lost: the reply stream, then what is queued (R120). -/
def State.replied (s : State) : List Byte := replyStream s.trace ++ s.reply

/-- A flush moves the bytes taken from the queue to the stream (R112). -/
theorem flush_replied (s : State) : (flush s).replied = s.replied := by
  by_cases hr : s.reply = []
  · rw [flush_of_nil hr]
  · rw [flush_of_ne_nil hr, State.replied, State.dropReply_trace, State.noteWrite_trace, State.dropReply_reply,
      replyStream_append, List.append_assoc]
    simp [replyStream, State.replied]

/-- A byte that is not lost comes last. -/
theorem pushReply_replied {v : Byte} {s : State} (hkept : (s.pushReply v).overrun = false) :
    (s.pushReply v).replied = s.replied ++ [v] := by
  cases hfull : s.replyFull with
  | true =>
    rw [State.pushReply_overrun, hfull] at hkept
    exact absurd hkept nofun
  | false => rw [State.pushReply_of_room hfull]; exact (List.append_assoc _ _ _).symm

theorem replyAppend_replied {v : Byte} {s : State} (hkept : (replyAppend v s).overrun = false) :
    (replyAppend v s).replied = s.replied ++ [v] := by
  cases hfull : s.replyFull with
  | true =>
    rw [replyAppend_of_full hfull] at hkept ⊢
    rw [pushReply_replied hkept, flush_replied]
  | false =>
    rw [replyAppend_of_room hfull] at hkept ⊢
    exact pushReply_replied hkept

theorem State.afterTransfers_replied (c : Bool) (b : Byte) (s : State) :
    (s.afterTransfers c b 7).replied = s.replied := by
  have hops : replyStream (s.trace ++ dataOps c b s.tdoAnswer) = replyStream s.trace := by
    rw [replyStream_append, replyStream_dataOps, List.append_nil]
  exact congrArg (· ++ s.reply) hops

/-- Without capture a byte replies nothing, with capture one byte, unless it is lost (R93, R119). -/
theorem State.Undisturbed.dataByte_replied_length {s : State} (h : s.Undisturbed) {r : Nat} {c : Bool}
    (hd : s.dstate = .inShift r c) {b : Byte} (hkept : (dataByte b s).overrun = false ∨ c = false) :
    (dataByte b s).replied.length = s.replied.length + if c then 1 else 0 := by
  rw [h.dataByte_eq_endByte hd] at hkept ⊢
  cases c with
  | false => exact congrArg List.length (s.afterTransfers_replied false b)
  | true =>
    have happend := replyAppend_replied (hkept.resolve_right nofun)
    rw [State.afterTransfers_replied] at happend
    exact (congrArg List.length happend).trans List.length_append

/-- A reply byte once lost in a session is known as lost at its end (R19). -/
theorem SessionRun.overrun_stays {c : Bool} {es : List Event} {s t : State} (h : SessionRun c es s t)
    (hlost : s.overrun = true) : t.overrun = true := by
  induction h with
  | nil => exact hlost
  | byte hs hd _ ih => exact ih ((onEvent_case (hs.onEvent_byte_eq hd _)).flagsStay.2 hlost)
  | eop hs _ ih => exact ih ((onEvent_case hs.onEvent_eop_eq).flagsStay.2 hlost)

/-- With capture each byte of a session replies one byte, without none. -/
theorem SessionRun.replied_length {c : Bool} {es : List Event} {s t : State} (h : SessionRun c es s t)
    (hkept : t.overrun = false ∨ c = false) :
    t.replied.length = s.replied.length + if c then byteCount es else 0 := by
  induction h with
  | nil => cases c <;> rfl
  | @byte b es r s t hs hd hrun ih =>
    have hkept' : (dataByte b s).overrun = false ∨ c = false :=
      hkept.imp_left fun hkept => Bool.eq_false_iff.2 fun hlost => Bool.eq_false_iff.1 hkept (hrun.overrun_stays hlost)
    rw [ih hkept, hs.dataByte_replied_length hd hkept', byteCount]
    cases c with
    | false => rfl
    | true => exact (Nat.add_assoc _ _ _).trans (congrArg _ (Nat.add_comm _ _))
  | eop _ _ ih => rw [ih hkept, flush_replied, byteCount]

/-- Settles O54: the bytes run inside the session, each leaves one less to come, and each reads and replies alike. -/
theorem sessionTakesExactlyItsCount : Obligations.SessionTakesExactlyItsCount := by
  intro n c evs s hn hs hd hno hle
  obtain ⟨t, ht, hrun, hdt⟩ := sessionRun_of_header (c := c) hn hs hd hno hle
  refine ⟨t, ht, ?_, hrun.tdoReads_length, hrun.replied_length⟩
  rw [hdt, DState.session]
  exact if_congr (by omega) rfl rfl

/-! ## TDI wired to TDO (R96) -/

/-- Of the operations of a transfer the read alone is tested, against the bit shifted out before it. -/
theorem loopBack_transferOps (l d t : Bool) (ops : List Op) :
    loopBack l (transferOps true d t ++ ops) = ((t == d) && loopBack d ops) := rfl

/-- Looped back, transfers answer the bits they shift out, and the last leaves its bit on TDI. -/
theorem loopBack_transfers (l : Bool) (d t : Nat → Bool) (ops : List Op) (is : List Nat) :
    loopBack l ((is.flatMap fun i => transferOps true (d i) (t i)) ++ ops) =
      ((is.all fun i => t i == d i) && loopBack ((is.map d).getLastD l) ops) := by
  induction is generalizing l with
  | nil => rfl
  | cons i is ih =>
    rw [List.flatMap_cons, List.append_assoc, loopBack_transferOps, ih, List.all_cons, List.map_cons,
      List.getLastD_cons, Bool.and_assoc]

theorem loopBack_replyOps (c : Bool) (b : Byte) (s : State) (l : Bool) (ops : List Op) :
    loopBack l (s.replyOps c b ++ ops) = loopBack l ops := by
  obtain h | ⟨-, -, h⟩ := s.replyOps_cases c b <;> rw [h] <;> rfl

/-- Looped back, the eight answers are the bits of the byte, and TDI is left at the last. -/
theorem loopBack_dataOps {l : Bool} {b : Byte} {t : Nat → Bool} {ops : List Op}
    (h : loopBack l (dataOps true b t ++ ops) = true) :
    (∀ i, i < 8 → t i = b.getLsbD i) ∧ loopBack (b.getLsbD 7) ops = true := by
  rw [dataOps, loopBack_transfers, Bool.and_eq_true, List.all_eq_true] at h
  obtain ⟨hbits, hrest⟩ := h
  exact ⟨fun i hi => beq_iff_eq.1 (hbits i (List.mem_range.2 hi)), hrest⟩

/-- The samples of a looped-back byte are the byte. -/
theorem packByte_nextSamples_of_loopBack {s : State} {b : Byte} (h : ∀ i, i < 8 → s.tdoAnswer i = b.getLsbD i) :
    packByte s.nextSamples = b := by
  refine BitVec.eq_of_getLsbD_eq fun i hi => ?_
  rw [getLsbD_packByte_nextSamples s hi, h i hi]

/-- Looped back, the bytes of a session are read back, and appended where the buffer has room for them all. -/
theorem SessionRun.loopBack_returns {bs : List Byte} {s t : State} (h : SessionRun true (bs.map .byte) s t) (hacc : s.acc = 0)
    (hloop : loopBack s.tdi (newOps s t) = true) :
    packBytes (tdoReads (newOps s t)) = bs ∧
      (s.reply.length + bs.length ≤ Config.mtu → t.reply = s.reply ++ bs) := by
  induction bs generalizing s with
  | nil =>
    cases h
    refine ⟨?_, fun _ => (List.append_nil _).symm⟩
    simp [newOps, tdoReads, packBytes]
  | cons b bs ih =>
    cases h with
    | byte hs hd hrun =>
      rw [hrun.newOps_byte hs hd] at hloop ⊢
      rw [hs.newOps_dataByte hd, List.append_assoc] at hloop
      obtain ⟨hbits, hloop⟩ := loopBack_dataOps hloop
      have hbyte := packByte_nextSamples_of_loopBack hbits
      have htdi : (dataByte b s).tdi = b.getLsbD 7 := congrArg Levels.tdi (hs.dataByte_levels hd b)
      rw [loopBack_replyOps, ← htdi] at hloop
      obtain ⟨hread, hreply⟩ := ih hrun (hs.dataByte_acc hd b) hloop
      refine ⟨?_, fun hroom => ?_⟩
      · have hwhole : s.nextSamples.length % 8 = 0 := by simp [State.nextSamples]
        rw [tdoReads_append, hs.tdoReads_dataByte hd, if_pos rfl, packBytes_append _ _ hwhole, packBytes_nextSamples,
          hbyte, hread]
        rfl
      · rw [List.length_cons] at hroom
        have happend : (dataByte b s).reply = s.reply ++ [b] := by
          rw [hs.dataByte_appends hd b (State.replyFull_eq_false_iff.2 (by omega)), hbyte, hacc]
          exact congrArg (s.reply ++ [·]) BitVec.zero_or
        rw [happend] at hreply
        rw [hreply (by rw [List.length_append, List.length_singleton]; omega), List.append_assoc]
        rfl

theorem byteCount_map_byte (bs : List Byte) : byteCount (bs.map .byte) = bs.length := by
  induction bs with
  | nil => rfl
  | cons b bs ih => exact congrArg (· + 1) ih

theorem noGpioFail_map_byte (bs : List Byte) : noGpioFail (bs.map .byte) = true := by
  induction bs with
  | nil => rfl
  | cons b bs ih => exact ih

/-- Settles O55: between two steps the accumulator is 0, so each byte replies its eight answers, which are its bits. -/
theorem loopBackReturnsTheBytes : Obligations.LoopBackReturnsTheBytes := by
  intro bs r s t hs hinv hd hle ht hloop
  have hpos : 0 < r := ((DState.legal_inShift r true).1 (hd ▸ hinv.legal)).1
  obtain ⟨u, hu, hrun, -⟩ := sessionRun_of_byteCount_le hs (hd.trans (DState.session_of_pos hpos true).symm)
    (noGpioFail_map_byte bs) ((byteCount_map_byte bs).trans_le hle)
  obtain rfl : u = t := Host.Outcome.next.inj (hu.symm.trans ht)
  exact hrun.loopBack_returns (hinv.quiet hs.1).1 hloop

end Sys2Proof.Machine

/-! # The Reply Buffer and the transport (spec/42_reply_transport.md) -/

namespace Sys2Proof.Machine

/-! ## The adapter's read -/

/-- Settles O15: with no event pending the step is the adapter's read, which cuts the packet to `RXMAX` bytes and draws a
countdown only where none is running. -/
theorem adapterPresentsAPacket : Obligations.AdapterPresentsAPacket := by
  intro s hinput
  refine ⟨(Config.packet s.draws).take Config.rxmax, s.readPacket, step_nil hinput, List.length_take_le _ _, rfl, rfl,
    fun n hn => ?_⟩
  rw [State.readPacket_gpioFail, hn]
  rfl

/-! ## `Flush` (R112) -/

/-- The one operation of a flush: the whole buffer is offered. -/
theorem newOps_flush_of_ne_nil {s : State} (hr : s.reply ≠ []) :
    newOps s (flush s) = [.transportWrite s.reply (s.acceptAnswer s.reply.length)] := by
  rw [newOps, flush_of_ne_nil hr, State.dropReply_trace, State.noteWrite_trace, List.drop_left]

theorem newOps_flush_of_nil {s : State} (hr : s.reply = []) : newOps s (flush s) = [] := by
  rw [newOps, flush_of_nil hr, List.drop_length]

/-- The bytes taken have left the buffer. -/
theorem flush_reply_of_ne_nil {s : State} (hr : s.reply ≠ []) :
    (flush s).reply = s.reply.drop (s.acceptAnswer s.reply.length) := by
  rw [flush_of_ne_nil hr]
  rfl

/-- Where a flush writes, it offers the Reply Buffer, which is then not empty. -/
theorem eq_reply_of_mem_offeredWrites_flush {s : State} {w : List Byte × Nat}
    (hw : w ∈ offeredWrites (newOps s (flush s))) : w.1 = s.reply ∧ s.reply ≠ [] := by
  by_cases hr : s.reply = []
  · rw [newOps_flush_of_nil hr] at hw
    exact absurd hw List.not_mem_nil
  · rw [newOps_flush_of_ne_nil hr] at hw
    rw [List.mem_singleton.1 hw]
    exact ⟨rfl, hr⟩

/-- Settles O46: the write offers the buffer, and the transport's answer is the count that leaves it. -/
theorem flushRule : Obligations.FlushRule := by
  intro s _
  refine ⟨flush_of_nil, fun hr => ⟨s.acceptAnswer s.reply.length, s.acceptAnswer_le _, fun a rest ha =>
    State.acceptAnswer_of_settled ha _, flush_of_ne_nil hr⟩, fun hinv w hw => ?_⟩
  obtain ⟨hblock, hne⟩ := eq_reply_of_mem_offeredWrites_flush hw
  rw [hblock]
  exact ⟨List.length_pos_of_ne_nil hne, hinv.room⟩

/-- Settles O50: the buffer after a flush is what the write did not take, and the next flush offers the whole buffer. -/
theorem refusedBytesAreOfferedAgain : Obligations.RefusedBytesAreOfferedAgain := by
  intro s _ hr
  refine ⟨_, newOps_flush_of_ne_nil hr, flush_reply_of_ne_nil hr, fun u newer _ hu hne => ?_⟩
  rw [← flush_reply_of_ne_nil hr, ← hu]
  exact ⟨_, newOps_flush_of_ne_nil hne, flush_reply_of_ne_nil hne⟩

/-! ## `ReplyAppend` (R111) -/

/-- A byte that finds the Reply Buffer full is lost (R119). -/
theorem State.pushReply_of_full {s : State} (hr : s.replyFull = true) (v : Byte) :
    s.pushReply v = { s with overrun := true } :=
  if_pos hr

/-- Settles O47: the byte is pushed onto the buffer, after a flush where that is full, and found room for or lost. -/
theorem replyAppendRule : Obligations.ReplyAppendRule := by
  intro v s _
  refine ⟨fun hroom => ?_, fun hfull => ?_⟩
  · have hroom := State.replyFull_eq_false_iff.2 hroom
    rw [replyAppend_of_room hroom, State.pushReply_of_room hroom]
  · rw [replyAppend_of_full (State.replyFull_iff.2 hfull)]
    split
    · exact State.pushReply_of_full (State.replyFull_iff.2 ‹_›) v
    · exact State.pushReply_of_room (State.replyFull_eq_false_iff.2 ‹_›) v

/-! ## `EOP` (R113) -/

/-- Settles O48: a halted core ignores the `EOP`, an undisturbed one flushes, and a flush only drains the buffer. -/
theorem endOfPacketFlushes : Obligations.EndOfPacketFlushes := by
  intro s rest hinput
  rw [step_cons hinput]
  refine ⟨fun hhalt => onEvent_of_halted (s := s.setInput rest) hhalt nofun, fun hs => ?_⟩
  have hdrains := (hs.setInput rest).flush_drainsOnly
  have hhalted := flush_halted (s.setInput rest)
  have hrun : (flush (s.setInput rest)).halted = false := hhalted.trans hs.1
  exact ⟨(hs.setInput rest).onEvent_eop_eq, hdrains.dstate, hdrains.acc, (hdrains.running hrun).2, hhalted,
    hdrains.overrun⟩

end Sys2Proof.Machine

/-! # The reply stream (spec/42_reply_transport.md R115 to R121) -/

namespace Sys2Proof.Machine

/-! ## A step that is not cut is the step with no GpioFail coming

What a completed step does is thus read off the equations on an undisturbed state. -/

/-- Where the operation does not end halted it did not start halted, and it does the same with no GpioFail coming. -/
def CountdownBlind (f : State → State) : Prop :=
  ∀ s, (f s).halted = false → s.halted = false ∧ f s.calm = (f s).calm

theorem CountdownBlind.of_comm {f : State → State} (hhalt : ∀ s, (f s).halted = s.halted)
    (hcalm : ∀ s, f s.calm = (f s).calm) : CountdownBlind f :=
  fun s hrun => ⟨(hhalt s).symm.trans hrun, hcalm s⟩

theorem CountdownBlind.comp {f g : State → State} (hg : CountdownBlind g) (hf : CountdownBlind f) :
    CountdownBlind fun s => g (f s) := by
  intro s hrun
  obtain ⟨hmid, hgcalm⟩ := hg (f s) hrun
  obtain ⟨hstart, hfcalm⟩ := hf s hmid
  exact ⟨hstart, (congrArg g hfcalm).trans hgcalm⟩

theorem State.calm_undisturbed {s : State} (h : s.halted = false) : s.calm.Undisturbed := ⟨h, rfl⟩

/-- The failure point before a statement raised nothing, so it only moved the countdown (R134). -/
theorem CountdownBlind.act {f : State → State} (hf : CountdownBlind f) : CountdownBlind (act f) := by
  intro s hrun
  obtain ⟨hcut, e⟩ | ⟨-, e⟩ := act_cases f s <;> rw [e] at hrun ⊢
  · exact absurd (hcut.symm.trans hrun) nofun
  · obtain ⟨hpoint, hcalm⟩ := hf s.failPoint hrun
    obtain ⟨hstart, hsame⟩ := State.failPoint_of_not_halted hpoint
    have hpointCalm : s.failPoint.calm = s.calm := by rw [hsame]; rfl
    rw [(State.calm_undisturbed hstart).act_eq, ← hpointCalm]
    exact ⟨hstart, hcalm⟩

theorem countdownBlind_id : CountdownBlind id := .of_comm (fun _ => rfl) fun _ => rfl

theorem countdownBlind_setLine (l : Line) (v : Bool) : CountdownBlind (setLine l v) :=
  CountdownBlind.act (.of_comm (State.driveLine_halted l v) fun _ => by cases l <;> rfl)

theorem countdownBlind_bitBang (k m d : Bool) : CountdownBlind (bitBang k m d) :=
  (countdownBlind_setLine .tck k).comp ((countdownBlind_setLine .tdi d).comp (countdownBlind_setLine .tms m))

theorem countdownBlind_openSession (n : Nat) (c : Bool) : CountdownBlind (openSession n c) :=
  .of_comm (fun _ => rfl) fun _ => rfl

theorem countdownBlind_flush : CountdownBlind flush := by
  refine .of_comm flush_halted fun s => ?_
  by_cases hr : s.reply = []
  · rw [flush_of_nil hr, flush_of_nil (s := s.calm) hr]
  · rw [flush_of_ne_nil hr, flush_of_ne_nil (s := s.calm) hr]
    rfl

theorem countdownBlind_pushReply (v : Byte) : CountdownBlind (State.pushReply v) := by
  refine .of_comm (State.pushReply_halted v) fun s => ?_
  have hfull : s.calm.replyFull = s.replyFull := rfl
  unfold State.pushReply
  rw [hfull]
  split <;> rfl

theorem countdownBlind_replyAppend (v : Byte) : CountdownBlind (replyAppend v) := by
  intro s
  cases hr : s.replyFull with
  | true =>
    rw [replyAppend_of_full hr, replyAppend_of_full (s := s.calm) hr]
    exact (countdownBlind_pushReply v).comp countdownBlind_flush s
  | false =>
    rw [replyAppend_of_room hr, replyAppend_of_room (s := s.calm) hr]
    exact countdownBlind_pushReply v s

/-- The target's answer does not depend on the countdown (R11). -/
theorem countdownBlind_sampleTdo (i : Nat) : CountdownBlind (sampleTdo i) := by
  have hor (t : Bool) : CountdownBlind (State.orSample t i) := .of_comm (fun _ => rfl) fun _ => rfl
  exact CountdownBlind.act fun s => (hor (s.tdoAnswer 0)).act s.noteRead

theorem countdownBlind_bitTransfer (c : Bool) (b : Byte) (i : Nat) : CountdownBlind (bitTransfer c b i) := by
  have hidx : CountdownBlind (State.setBitIdx i) := .of_comm (fun _ => rfl) fun _ => rfl
  have hpulse := (countdownBlind_setLine .tck false).comp
    ((countdownBlind_setLine .tck true).comp ((countdownBlind_setLine .tdi (dataBit b i)).comp hidx.act))
  cases c with
  | false => exact hpulse
  | true => exact (countdownBlind_sampleTdo i).comp hpulse

theorem CountdownBlind.foldl {f : State → Nat → State} (hf : ∀ i, CountdownBlind fun s => f s i) (is : List Nat) :
    CountdownBlind fun s => is.foldl f s := by
  induction is with
  | nil => exact countdownBlind_id
  | cons i is ih => exact ih.comp (hf i)

theorem countdownBlind_endByte (r : Nat) (c : Bool) : CountdownBlind (endByte r c) := by
  have hfinish : CountdownBlind (State.finishByte r c) := .of_comm (fun _ => rfl) fun _ => rfl
  have hclear : CountdownBlind State.clearAcc := .of_comm (fun _ => rfl) fun _ => rfl
  cases c with
  | false => exact hfinish
  | true => exact fun s => hfinish.comp (hclear.comp (countdownBlind_replyAppend s.acc)) s

theorem countdownBlind_shiftByte (r : Nat) (c : Bool) (b : Byte) : CountdownBlind (shiftByte r c b) :=
  (countdownBlind_endByte r c).act.comp (.foldl (countdownBlind_bitTransfer c b) _)

/-- An event after which the core runs was taken by a running core, with the same effect as where no GpioFail is
coming. -/
theorem EventCase.calm {s t : State} {e : Event} (h : EventCase s e t) (hrun : t.halted = false) :
    s.halted = false ∧ EventCase s.calm e t.calm := by
  have via {f : State → State} (hf : CountdownBlind f) (hs : (act f s).halted = false)
      (hcase : EventCase s.calm e (act f s.calm)) : s.halted = false ∧ EventCase s.calm e (act f s).calm :=
    have ⟨hstart, hcalm⟩ := hf.act s hs
    ⟨hstart, hcalm ▸ hcase⟩
  cases h with
  | gpioFail => exact absurd hrun nofun
  | eop => exact via countdownBlind_flush hrun .eop
  | bitBang hd hc => exact via (countdownBlind_bitBang _ _ _) hrun (.bitBang hd hc)
  | header hd hc => exact via (countdownBlind_openSession _ _) hrun (.header hd hc)
  | malformed hd hc => exact via countdownBlind_id hrun (.malformed hd hc)
  | data hd => exact via (countdownBlind_shiftByte _ _ _) hrun (.data hd)

/-! ## What writes to the transport, and what loses a byte -/

/-- No write to the transport is made and no reply byte lost. -/
structure WritesNothing (s t : State) : Prop where
  offered : offeredWrites t.trace = offeredWrites s.trace
  overrun : t.overrun = s.overrun

theorem WritesNothing.of_eq {s t : State} (htrace : t.trace = s.trace) (hoverrun : t.overrun = s.overrun) :
    WritesNothing s t :=
  ⟨congrArg offeredWrites htrace, hoverrun⟩

theorem WritesNothing.of_pinOp {s t : State} {op : Op} (htrace : t.trace = s.trace ++ [op])
    (hop : offeredWrites [op] = []) (hoverrun : t.overrun = s.overrun) : WritesNothing s t :=
  ⟨by rw [htrace, offeredWrites_append, hop, List.append_nil], hoverrun⟩

theorem WritesNothing.driveLine (s : State) (l : Line) (v : Bool) : WritesNothing s (s.driveLine l v) :=
  .of_pinOp (State.driveLine_trace l v s) rfl (State.driveLine_overrun l v s)

theorem writesNothing_kept : Kept WritesNothing where
  refl _ := .of_eq rfl rfl
  trans hst htu := ⟨htu.offered.trans hst.offered, htu.overrun.trans hst.overrun⟩
  failPoint s :=
    have ⟨_, _, _, _, hoverrun, htrace, _⟩ := s.failPoint_frame
    .of_eq htrace hoverrun

theorem WritesNothing.offeredWrites_newOps {s t : State} (h : WritesNothing s t) (hgrows : TraceGrows s t) :
    offeredWrites (newOps s t) = [] := by
  have hoffered := h.offered
  rw [newOps_of_prefix hgrows, offeredWrites_append] at hoffered
  exact List.append_right_eq_self.1 hoffered

/-- The reply stream is made of the blocks offered, each cut to the count taken (R120). -/
theorem replyStream_eq_flatMap (ops : List Op) :
    replyStream ops = (offeredWrites ops).flatMap fun w => w.1.take w.2 := by
  induction ops with
  | nil => rfl
  | cons op ops ih => cases op <;> simp [replyStream, offeredWrites, ih]

theorem WritesNothing.replyStream_eq {s t : State} (h : WritesNothing s t) :
    replyStream t.trace = replyStream s.trace := by
  rw [replyStream_eq_flatMap, h.offered, ← replyStream_eq_flatMap]

theorem act_bitBang_writesNothing (k m d : Bool) (s : State) : WritesNothing s (act (bitBang k m d) s) :=
  writesNothing_kept.of_act fun u _ => writesNothing_kept.of_bitBang (fun w l v _ => .driveLine w l v) k m d u

theorem act_openSession_writesNothing (n : Nat) (c : Bool) (s : State) :
    WritesNothing s (act (openSession n c) s) :=
  writesNothing_kept.of_act fun _ _ => .of_eq rfl rfl

/-- The eight transfers make pin operations only (R91). -/
theorem bitTransfers_writesNothing (c : Bool) (b : Byte) (s : State) : WritesNothing s (bitTransfers c b s) :=
  writesNothing_kept.of_foldl (fun u i => writesNothing_kept.of_bitTransfer (fun w l v _ _ => .driveLine w l v)
    (fun _ _ _ => .of_eq rfl rfl) (fun _ w _ => .of_pinOp w.noteRead_trace rfl rfl) (fun _ _ _ _ _ => .of_eq rfl rfl)
    b i u) _ s

/-- No failure point follows the end of a data byte, so one that is cut is cut before it (R134, R140). -/
theorem act_shiftByte_writesNothing_of_halted {r : Nat} {c : Bool} {b : Byte} {s : State}
    (hhalt : (act (shiftByte r c b) s).halted = true) : WritesNothing s (act (shiftByte r c b) s) := by
  have K := writesNothing_kept
  obtain ⟨-, e⟩ | ⟨-, e⟩ := act_cases (shiftByte r c b) s <;> rw [e] at hhalt ⊢
  · exact K.failPoint s
  · have htransfers := K.trans (K.failPoint s) (bitTransfers_writesNothing c b s.failPoint)
    rw [shiftByte] at hhalt ⊢
    obtain ⟨-, e⟩ | ⟨hrun, e⟩ := act_cases (endByte r c) (bitTransfers c b s.failPoint) <;> rw [e] at hhalt ⊢
    · exact K.trans htransfers (K.failPoint _)
    · rw [endByte_halted, hrun] at hhalt
      exact absurd hhalt nofun

theorem act_flush_writesNothing_of_halted {s : State} (hhalt : (act flush s).halted = true) :
    WritesNothing s (act flush s) := by
  obtain ⟨-, e⟩ | ⟨hrun, e⟩ := act_cases flush s <;> rw [e] at hhalt ⊢
  · exact writesNothing_kept.failPoint s
  · rw [flush_halted, hrun] at hhalt
    exact absurd hhalt nofun

/-- An event that ends in a halted core has written nothing and lost no reply byte (R140). -/
theorem EventCase.writesNothing_of_halted {s t : State} {e : Event} (h : EventCase s e t) (hhalt : t.halted = true) :
    WritesNothing s t := by
  cases h with
  | gpioFail => exact .of_eq rfl rfl
  | eop => exact act_flush_writesNothing_of_halted hhalt
  | bitBang => exact act_bitBang_writesNothing _ _ _ s
  | header => exact act_openSession_writesNothing _ _ s
  | malformed => exact writesNothing_kept.of_act fun _ _ => .of_eq rfl rfl
  | data => exact act_shiftByte_writesNothing_of_halted hhalt

/-- Without a flush a data byte makes pin operations only. -/
theorem State.Undisturbed.dataByte_writesNothing {s : State} (h : s.Undisturbed) {r : Nat} {c : Bool}
    (hd : s.dstate = .inShift r c) {b : Byte} (hroom : c = true → s.replyFull = false) :
    WritesNothing s (dataByte b s) := by
  have hnone : s.replyOps c b = [] := by
    cases c with
    | false => rfl
    | true => exact if_neg (ne_true_of_eq_false (hroom rfl))
  refine ⟨?_, ?_⟩
  · rw [h.dataByte_trace hd, hnone, List.append_nil, offeredWrites_append, offeredWrites_dataOps, List.append_nil]
  · cases c with
    | false => rw [h.dataByte_noCapture_eq hd]; rfl
    | true => rw [h.dataByte_appends hd b (hroom rfl)]; rfl

/-- Of the bytes met undisturbed only one in a session with capture that meets a full buffer writes to the transport. -/
theorem EventCase.writesNothing_or_full {s t : State} {b : Byte} (h : EventCase s (.byte b) t) (hs : s.Undisturbed) :
    WritesNothing s t ∨ ∃ r, s.dstate = .inShift r true ∧ s.replyFull = true ∧ t = dataByte b s := by
  cases h with
  | bitBang => exact .inl (act_bitBang_writesNothing _ _ _ s)
  | header => exact .inl (act_openSession_writesNothing _ _ s)
  | malformed => exact .inl (writesNothing_kept.of_act fun _ _ => .of_eq rfl rfl)
  | @data _ r c hd =>
    rw [← act_dataByte hd, hs.act_eq]
    by_cases hfull : c = true ∧ s.replyFull = true
    · obtain ⟨rfl, hfull⟩ := hfull
      exact .inr ⟨r, hd, hfull, rfl⟩
    · exact .inl (hs.dataByte_writesNothing hd fun hc => Bool.eq_false_iff.2 fun hr => hfull ⟨hc, hr⟩)

/-! ## `overrun` (R119, R136) -/

/-- Met undisturbed with a full buffer, a data byte makes one write, and loses its reply byte where that is refused. -/
theorem State.Undisturbed.dataByte_overrun_iff {s : State} (h : s.Undisturbed) {r : Nat} (hd : s.dstate = .inShift r true)
    {b : Byte} (hfull : s.replyFull = true) (hkept : s.overrun = false) :
    (dataByte b s).overrun = true ↔ .transportWrite s.reply 0 ∈ newOps s (dataByte b s) := by
  have hops : offeredWrites (newOps s (dataByte b s)) = [(s.reply, s.takenInData b)] := by
    rw [h.newOps_dataByte hd, offeredWrites_append, offeredWrites_dataOps, State.replyOps, hfull]
    rfl
  rw [← mem_offeredWrites, hops, List.mem_singleton, Prod.mk.injEq, eq_self, true_and]
  cases hc : s.takenInData b with
  | zero => exact iff_of_true (h.dataByte_refused hd hfull hc).2 rfl
  | succ n =>
    rw [(h.dataByte_taken hd hfull (by omega)).2, hkept]
    exact iff_of_false nofun nofun

/-- A byte writes nothing, or it meets a full buffer in a session with capture, and whether its write is refused decides
`overrun`. -/
theorem EventCase.byte_cases {s t : State} {b : Byte} (h : EventCase s (.byte b) t) (hkept : s.overrun = false) :
    WritesNothing s t ∨ ((∃ r, s.dstate = .inShift r true) ∧ s.reply.length = Config.mtu ∧
      (t.overrun = true ↔ .transportWrite s.reply 0 ∈ newOps s t)) := by
  cases hhalt : t.halted with
  | true => exact .inl (h.writesNothing_of_halted hhalt)
  | false =>
    obtain ⟨hrun, hcalm⟩ := h.calm hhalt
    have hs := State.calm_undisturbed hrun
    obtain ⟨hoffered, hoverrun⟩ | ⟨r, hd, hfull, hdata⟩ := hcalm.writesNothing_or_full hs
    · exact .inl ⟨hoffered, hoverrun⟩
    · have hiff := hs.dataByte_overrun_iff (b := b) hd hfull hkept
      rw [← hdata] at hiff
      exact .inr ⟨⟨r, hd⟩, State.replyFull_iff.1 hfull, hiff⟩

theorem EventCase.overrun_eq_or_byte {s t : State} {e : Event} (h : EventCase s e t) :
    t.overrun = s.overrun ∨ ∃ b, e = .byte b := by
  cases h with
  | gpioFail => exact .inl rfl
  | eop => exact .inl (act_flush_drainsOnly s).overrun
  | bitBang | header | malformed | data => exact .inr ⟨_, rfl⟩

/-- Where nothing was written no write is among the operations. -/
theorem WritesNothing.transportWrite_not_mem {s t : State} (h : WritesNothing s t) (hgrows : TraceGrows s t)
    (xs : List Byte) (c : Nat) : .transportWrite xs c ∉ newOps s t := by
  rw [← mem_offeredWrites, h.offeredWrites_newOps hgrows]
  exact List.not_mem_nil

/-- Settles O51: a byte writes nothing, or it meets a full buffer in a session with capture and the count taken decides;
no other event and no read of a packet touches `overrun`. -/
theorem overrunOnlyByRefusal : Obligations.OverrunOnlyByRefusal := by
  intro s t h hkept
  have hgrows := step_traceGrows h
  obtain ⟨hnil, rfl⟩ | ⟨e, rest, hinput, hcase⟩ := step_case h
  · exact ⟨fun hlost => absurd (hkept.symm.trans hlost) nofun,
      fun _ _ ⟨_, _, hbyte⟩ => absurd (hnil.symm.trans hbyte) nofun⟩
  refine ⟨fun hlost => ?_, fun hwrite _ ⟨b, rest', hbyte⟩ => ?_⟩
  · obtain hsame | ⟨b, rfl⟩ := hcase.overrun_eq_or_byte
    · exact absurd (hkept.symm.trans (hsame.symm.trans hlost)) nofun
    · obtain hnothing | ⟨⟨r, hd⟩, hlen, hiff⟩ := hcase.byte_cases hkept
      · exact absurd (hkept.symm.trans (hnothing.overrun.symm.trans hlost)) nofun
      · exact ⟨b, rest, r, hinput, hd, hlen, hiff.1 hlost⟩
  · obtain ⟨rfl, -⟩ := List.cons.inj (hinput.symm.trans hbyte)
    obtain hnothing | ⟨-, -, hiff⟩ := hcase.byte_cases hkept
    · exact absurd hwrite (hnothing.transportWrite_not_mem hgrows _ _)
    · exact hiff.2 hwrite

/-! ## What a step captures, it replies (R120) -/

/-- Between the two states at most `n` bytes were captured, each whole, and all of them went behind what was replied
before, in order. -/
structure Captures (n : Nat) (s t : State) : Prop where
  grows : TraceGrows s t
  whole : (tdoReads (newOps s t)).length % 8 = 0
  few : (packBytes (tdoReads (newOps s t))).length ≤ n
  replied : t.replied = s.replied ++ packBytes (tdoReads (newOps s t))

theorem Captures.of_noReads {n : Nat} {s t : State} (hgrows : TraceGrows s t) (hreads : tdoReads (newOps s t) = [])
    (hreplied : t.replied = s.replied) : Captures n s t := by
  refine ⟨hgrows, ?_, ?_, ?_⟩ <;> rw [hreads]
  · rfl
  · exact n.zero_le
  · rw [hreplied]
    exact (List.append_nil _).symm

theorem Captures.of_eq {n : Nat} {s t : State} (htrace : t.trace = s.trace) (hreply : t.reply = s.reply) :
    Captures n s t :=
  .of_noReads (.of_eq htrace) (by rw [newOps, htrace, List.drop_length]; rfl)
    (by rw [State.replied, htrace, hreply, State.replied])

/-- Whole bytes pack apart from what is captured behind them (R34). -/
theorem Captures.trans {n m : Nat} {s t u : State} (hst : Captures n s t) (htu : Captures m t u) :
    Captures (n + m) s u := by
  have hreads : tdoReads (newOps s u) = tdoReads (newOps s t) ++ tdoReads (newOps t u) := by
    rw [newOps_trans hst.grows htu.grows, tdoReads_append]
  have hpack := packBytes_append _ (tdoReads (newOps t u)) hst.whole
  refine ⟨hst.grows.trans htu.grows, ?_, ?_, ?_⟩ <;> rw [hreads]
  · rw [List.length_append, Nat.add_mod, hst.whole, htu.whole]
  · rw [hpack, List.length_append]
    exact Nat.add_le_add hst.few htu.few
  · rw [hpack, htu.replied, hst.replied, List.append_assoc]

/-- Bytes captured and replied keep the law of the reply stream. -/
theorem Captures.replyLaw {n : Nat} {s t : State} (h : Captures n s t)
    (hs : s.replied = packBytes (tdoReads s.trace) ∧ (tdoReads s.trace).length % 8 = 0) :
    t.replied = packBytes (tdoReads t.trace) ∧ (tdoReads t.trace).length % 8 = 0 := by
  obtain ⟨hlaw, hwhole⟩ := hs
  rw [newOps_of_prefix h.grows, tdoReads_append, packBytes_append _ _ hwhole, ← hlaw, List.length_append, Nat.add_mod,
    hwhole, h.whole]
  exact ⟨h.replied, rfl⟩

theorem replyAppend_replied_of_room {s : State} (hroom : s.replyFull = false) (v : Byte) :
    (replyAppend v s).replied = s.replied ++ [v] := by
  rw [replyAppend_of_room hroom, State.pushReply_of_room hroom]
  exact (List.append_assoc _ _ _).symm

section
variable {s t : State} (hs : s.Undisturbed)
include hs

/-- With capture the eight samples make the reply byte, which goes behind those before it unless it is lost (R92). -/
theorem State.Undisturbed.dataByte_replied {r : Nat} (hd : s.dstate = .inShift r true) {b : Byte} (hacc : s.acc = 0)
    (hkept : s.replyFull = false ∨ (dataByte b s).overrun = false) :
    (dataByte b s).replied = s.replied ++ [packByte s.nextSamples] := by
  have hsample : (s.afterTransfers true b 7).acc = packByte s.nextSamples := by
    rw [State.afterTransfers_acc, hacc]
    exact BitVec.zero_or
  rw [hs.dataByte_eq_endByte hd] at hkept ⊢
  have happend : (replyAppend (s.afterTransfers true b 7).acc (s.afterTransfers true b 7)).replied =
      (s.afterTransfers true b 7).replied ++ [(s.afterTransfers true b 7).acc] :=
    hkept.elim (fun hroom => replyAppend_replied_of_room (s := s.afterTransfers true b 7) hroom _) replyAppend_replied
  rw [State.afterTransfers_replied] at happend
  rw [← hsample]
  exact happend

theorem State.Undisturbed.dataByte_captures {r : Nat} {c : Bool} (hd : s.dstate = .inShift r c) {b : Byte}
    (hacc : s.acc = 0) (hkept : s.replyFull = false ∨ (dataByte b s).overrun = false) :
    Captures 1 s (dataByte b s) := by
  have hgrows := hs.dataByte_traceGrows hd b
  have hreads := hs.tdoReads_dataByte hd b
  cases c with
  | false =>
    refine .of_noReads hgrows hreads ?_
    rw [hs.dataByte_eq_endByte hd]
    exact s.afterTransfers_replied false b
  | true =>
    rw [if_pos rfl] at hreads
    refine ⟨hgrows, ?_, ?_, ?_⟩ <;> rw [hreads]
    · simp [State.nextSamples]
    · exact Nat.le_refl 1
    · exact hs.dataByte_replied hd hacc hkept

theorem State.Undisturbed.bitBang_captures (k m d : Bool) : Captures 1 s (bitBang k m d s) := by
  have hgrows := traceGrows_kept.of_bitBang (fun u l v _ => .driveLine u l v) k m d s
  rw [hs.bitBang_eq] at hgrows ⊢
  refine .of_noReads hgrows ?_ ?_
  · simp [newOps, tdoReads]
  · simp [State.replied, replyStream_append, replyStream]

theorem State.Undisturbed.flush_captures : Captures 1 s (flush s) :=
  .of_noReads hs.flush_traceGrows (tdoReads_flush s) (flush_replied s)

/-- Undisturbed, an event captures at most one byte, and replies it unless it is lost. -/
theorem EventCase.captures {e : Event} (h : EventCase s e t) (hrun : t.halted = false) (hacc : s.acc = 0)
    (hkept : s.replyFull = false ∨ t.overrun = false) : Captures 1 s t := by
  cases h with
  | gpioFail => exact absurd hrun nofun
  | eop => rw [hs.act_eq]; exact hs.flush_captures
  | bitBang => rw [hs.act_eq]; exact hs.bitBang_captures _ _ _
  | header => rw [hs.act_eq]; exact .of_eq rfl rfl
  | malformed => rw [hs.act_eq]; exact .of_eq rfl rfl
  | data hd =>
    rw [← act_dataByte hd, hs.act_eq] at hkept ⊢
    exact hs.dataByte_captures hd hacc hkept

end

/-- An event keeps the law: one after which the core still runs captures what it replies, or loses a byte. -/
theorem EventCase.replyLaw {s t : State} {e : Event} (h : EventCase s e t) (hinv : s.Inv) (hlaw : s.ReplyLaw) :
    t.ReplyLaw := by
  intro hrun hkept
  obtain ⟨hstart, hcalm⟩ := h.calm hrun
  have hstartKept : s.overrun = false := Bool.eq_false_iff.2 fun hlost =>
    absurd (hkept.symm.trans (h.flagsStay.2 hlost)) nofun
  have hcaptures := hcalm.captures (State.calm_undisturbed hstart) hrun (hinv.quiet hstart).1 (.inr hkept)
  exact hcaptures.replyLaw (hlaw hstart hstartKept)

/-- Settles O52: no event loses, duplicates or reorders a byte where neither flag is set, and a read of a packet touches
neither trace nor buffer. -/
theorem replyStreamLosesNothing : Obligations.ReplyStreamLosesNothing := by
  intro s t hinv hlaw h
  obtain ⟨-, rfl⟩ | ⟨e, rest, -, hcase⟩ := step_case h
  · exact hlaw
  · exact hcase.replyLaw (s := s.setInput rest) ⟨hinv.legal, hinv.quiet, hinv.room⟩ hlaw

/-! ## A packet and a transport that takes everything (R115, R121) -/

/-- Where nothing was written, what was captured is queued (R111). -/
theorem Captures.reply_eq {n : Nat} {s t : State} (h : Captures n s t) (hnothing : WritesNothing s t) :
    t.reply = s.reply ++ packBytes (tdoReads (newOps s t)) := by
  have hreplied := h.replied
  rw [State.replied, State.replied, hnothing.replyStream_eq, List.append_assoc] at hreplied
  exact List.append_cancel_left hreplied

/-- A byte met with room in the buffer is run, captured and not written (R111). -/
theorem State.Undisturbed.onEvent_byte_of_room {s : State} (hs : s.Undisturbed) (hinv : s.Inv)
    (hroom : s.replyFull = false) (b : Byte) :
    ∃ t, onEvent (.byte b) s = .next t ∧ t.Undisturbed ∧ t.Inv ∧ Captures 1 s t ∧ WritesNothing s t := by
  obtain ⟨t, ht⟩ := onEvent_isNext (.byte b) s
  have hcase := onEvent_case ht
  obtain ⟨hcalm, hhalted⟩ := hcase.staysCalm nofun hs.2
  have hrun := hhalted.trans hs.1
  have hnothing := (hcase.writesNothing_or_full hs).resolve_right fun ⟨_, _, hfull, _⟩ =>
    absurd (hroom.symm.trans hfull) nofun
  exact ⟨t, ht, ⟨hrun, hcalm⟩, hcase.inv hinv, hcase.captures hs hrun (hinv.quiet hs.1).1 (.inl hroom), hnothing⟩

/-- The bytes of a packet for which the buffer has room are captured and not written, and the `EOP` then flushes. -/
theorem feed_packetEvents_of_room {bs : List Byte} {s t : State} (hs : s.Undisturbed) (hinv : s.Inv)
    (hroom : s.reply.length + bs.length ≤ Config.mtu) (h : feed (packetEvents bs) s = .next t) :
    ∃ u, t = flush u ∧ u.Undisturbed ∧ Captures bs.length s u ∧ WritesNothing s u := by
  induction bs generalizing s with
  | nil =>
    have hflush := (feed_cons (es := []) hs.onEvent_eop_eq).symm.trans h
    exact ⟨s, (Host.Outcome.next.inj hflush).symm, hs, .of_eq rfl rfl, .of_eq rfl rfl⟩
  | cons b bs ih =>
    rw [List.length_cons] at hroom
    obtain ⟨m, hm, hsm, hinvm, hcaptures, hnothing⟩ :=
      hs.onEvent_byte_of_room hinv (State.replyFull_eq_false_iff.2 (by omega)) b
    have hgrown : m.reply.length ≤ s.reply.length + 1 := by
      rw [hcaptures.reply_eq hnothing, List.length_append]
      exact Nat.add_le_add_left hcaptures.few _
    obtain ⟨u, hflush, hsu, hcaptures', hnothing'⟩ := ih hsm hinvm (by omega) ((feed_cons hm).symm.trans h)
    refine ⟨u, hflush, hsu, ?_, writesNothing_kept.trans hnothing hnothing'⟩
    rw [List.length_cons, Nat.add_comm]
    exact hcaptures.trans hcaptures'

/-- Taken whole, a flush empties the buffer by one write, or by none where it was empty (R112). -/
theorem flush_of_acceptsAll {s : State} (h : acceptsAll (newOps s (flush s)) = true) :
    (flush s).reply = [] ∧
      offeredWrites (newOps s (flush s)) = if s.reply = [] then [] else [(s.reply, s.reply.length)] := by
  by_cases hr : s.reply = []
  · rw [if_pos hr, newOps_flush_of_nil hr, flush_of_nil hr]
    exact ⟨hr, rfl⟩
  · rw [newOps_flush_of_ne_nil hr] at h ⊢
    have hall : s.acceptAnswer s.reply.length = s.reply.length := by simpa [acceptsAll, offeredWrites] using h
    rw [if_neg hr, flush_reply_of_ne_nil hr, hall, List.drop_length]
    exact ⟨rfl, rfl⟩

/-- Settles O53: the packet's bytes find room, so that their replies are queued, and the `EOP` writes them at once. -/
theorem acceptingTransportDrainsAPacket : Obligations.AcceptingTransportDrainsAPacket := by
  intro bs s t hlen hs hinv hempty h hall
  have hroom : s.reply.length + bs.length ≤ Config.mtu := by
    rw [hempty, List.length_nil, Nat.zero_add]
    exact hlen
  obtain ⟨u, rfl, hsu, hcaptures, hnothing⟩ := feed_packetEvents_of_room hs hinv hroom h
  have hqueued := hcaptures.reply_eq hnothing
  rw [hempty, List.nil_append] at hqueued
  have hops := newOps_trans hcaptures.grows hsu.flush_traceGrows
  have hreads : tdoReads (newOps s (flush u)) = tdoReads (newOps s u) := by
    rw [hops, tdoReads_append, tdoReads_flush, List.append_nil]
  have hwrites : offeredWrites (newOps s (flush u)) = offeredWrites (newOps u (flush u)) := by
    rw [hops, offeredWrites_append, hnothing.offeredWrites_newOps hcaptures.grows, List.nil_append]
  rw [acceptsAll, hwrites, ← acceptsAll] at hall
  obtain ⟨hdrained, hwrite⟩ := flush_of_acceptsAll hall
  rw [hwrites, hreads, ← hqueued]
  exact ⟨hdrained, hsu.flush_drainsOnly.overrun.trans hnothing.overrun, hwrite⟩

end Sys2Proof.Machine

/-! # GpioFail and the errors a step can meet (spec/60_exceptions.md) -/

namespace Sys2Proof.Machine

/-! ## GpioFail between two steps, and what follows it (R134, R135) -/

/-- Settles O18: the step on the event is `raiseHalt`, which writes `halted` and the levels of the lines. -/
theorem gpioFailHalts : Obligations.GpioFailHalts :=
  fun _ _ hinput => ⟨_, step_cons hinput, rfl, rfl, rfl, rfl, rfl, rfl, rfl, rfl⟩

/-- Settles O17: a read of a packet does nothing to the core, a further GpioFail draws the levels anew, and every other
event is ignored. -/
theorem haltIsForever : Obligations.HaltIsForever := by
  intro s t hhalt h
  cases hinput : s.input with
  | nil =>
    rw [step_nil hinput] at h
    cases h
    exact ⟨hhalt, rfl, rfl, rfl, rfl, rfl, rfl, fun _ => rfl⟩
  | cons e rest =>
    by_cases he : e = .gpioFail
    · subst he
      rw [step_cons hinput] at h
      cases h
      exact ⟨rfl, rfl, rfl, rfl, rfl, rfl, rfl, fun hne => absurd rfl hne⟩
    · rw [haltedCoreIgnoresEvents s e rest hhalt hinput he] at h
      cases h
      exact ⟨hhalt, rfl, rfl, rfl, rfl, rfl, rfl, fun _ => rfl⟩

/-! ## Only GpioFail halts (R134, R137) -/

/-- Settles O20: the adapter's read leaves `halted` alone, and where no GpioFail is coming so does every event but
GpioFail itself. -/
theorem onlyGpioFailHalts : Obligations.OnlyGpioFailHalts := by
  intro s t h hrun hhalt
  have hne : t.halted ≠ s.halted := fun e => absurd (hrun.symm.trans (e.symm.trans hhalt)) nofun
  obtain ⟨-, rfl⟩ | ⟨e, rest, hinput, hcase⟩ := step_case h
  · exact absurd rfl hne
  · by_cases he : e = .gpioFail
    · exact .inl (by rw [hinput, he]; rfl)
    · exact .inr fun hnone => hne (hcase.staysCalm he hnone).2

/-! ## The run with no GpioFail coming, beside the run that may be cut (R134) -/

/-- The second state is where the first would be with no GpioFail coming: the same but for the countdown, or further in
the trace than the first, which has been cut. -/
structure Tracks (t u : State) : Prop where
  completed : t.halted = false → u = t.calm
  grows : TraceGrows t u

theorem Tracks.of_eq_calm {t u : State} (h : u = t.calm) : Tracks t u :=
  ⟨fun _ => h, .of_eq (h ▸ rfl)⟩

/-- The operation keeps the one run beside the other, so a GpioFail inside it cuts it short at most. -/
def CutsShort (f : State → State) : Prop := ∀ t u, Tracks t u → Tracks (f t) (f u)

section
variable {f g : State → State}

theorem CutsShort.comp (hg : CutsShort g) (hf : CutsShort f) : CutsShort fun s => g (f s) :=
  fun t u h => hg _ _ (hf t u h)

theorem CutsShort.tracks_calm (hf : CutsShort f) (s : State) : Tracks (f s) (f s.calm) :=
  hf _ _ (.of_eq_calm rfl)

/-- A GpioFail before the statement leaves it out on one side, and the other goes on; without one the two sides differ
in the countdown only, and the statement is run on both. -/
theorem CutsShort.act (htracks : ∀ s, s.halted = false → Tracks (f s) (f s.calm))
    (hgrows : ∀ s, s.halted = false → TraceGrows s (f s)) : CutsShort (act f) := by
  intro t u h
  obtain ⟨hcut, e⟩ | ⟨hrun, e⟩ := act_cases f t <;> rw [e]
  · have hpoint : TraceGrows t.failPoint t :=
      have ⟨_, _, _, _, _, htrace, _⟩ := t.failPoint_frame
      .of_eq htrace.symm
    exact ⟨fun hrun => absurd (hcut.symm.trans hrun) nofun,
      hpoint.trans (h.grows.trans (traceGrows_kept.of_act hgrows))⟩
  · obtain ⟨hstart, hsame⟩ := State.failPoint_of_not_halted hrun
    have hu : u = t.failPoint.calm := by rw [h.completed hstart, hsame]; rfl
    rw [hu, (State.calm_undisturbed hrun).act_eq]
    exact htracks _ hrun

/-- A statement that takes no notice of the countdown and of the halt may be cut before it, not inside it. -/
theorem CutsShort.act_of_blind (hblind : CountdownBlind f) (hhalt : ∀ s, (f s).halted = s.halted)
    (hgrows : ∀ s, s.halted = false → TraceGrows s (f s)) : CutsShort (Machine.act f) :=
  .act (fun s hrun => .of_eq_calm (hblind s ((hhalt s).trans hrun)).2) hgrows

theorem CutsShort.foldl {f : State → Nat → State} (hf : ∀ i, CutsShort fun s => f s i) (is : List Nat) :
    CutsShort fun s => is.foldl f s := by
  induction is with
  | nil => exact fun _ _ => id
  | cons i is ih => exact ih.comp (hf i)

end

theorem cutsShort_setLine (l : Line) (v : Bool) : CutsShort (setLine l v) :=
  .act_of_blind (.of_comm (State.driveLine_halted l v) fun _ => by cases l <;> rfl) (State.driveLine_halted l v)
    fun s _ => .driveLine s l v

theorem cutsShort_bitBang (k m d : Bool) : CutsShort (bitBang k m d) :=
  (cutsShort_setLine .tck k).comp ((cutsShort_setLine .tdi d).comp (cutsShort_setLine .tms m))

theorem cutsShort_setBitIdx (i : Nat) : CutsShort (act (State.setBitIdx i)) :=
  .act_of_blind (.of_comm (fun _ => rfl) fun _ => rfl) (fun _ => rfl) fun _ _ => .of_eq rfl

theorem cutsShort_orSample (t : Bool) (i : Nat) : CutsShort (act (State.orSample t i)) :=
  .act_of_blind (.of_comm (fun _ => rfl) fun _ => rfl) (fun _ => rfl) fun _ _ => .of_eq rfl

/-- The answer is the same on both sides; a GpioFail may fall between the read and the accumulator's update. -/
theorem cutsShort_sampleTdo (i : Nat) : CutsShort (sampleTdo i) :=
  CutsShort.act (fun s _ => (cutsShort_orSample (s.tdoAnswer 0) i).tracks_calm s.noteRead) fun s hrun =>
    traceGrows_kept.trans (traceGrows_kept.read s hrun) (traceGrows_kept.of_act fun u hu =>
      traceGrows_kept.orSample u _ i hu)

theorem cutsShort_bitTransfer (c : Bool) (b : Byte) (i : Nat) : CutsShort (bitTransfer c b i) := by
  have hpulse := (cutsShort_setLine .tck false).comp
    ((cutsShort_setLine .tck true).comp ((cutsShort_setLine .tdi (dataBit b i)).comp (cutsShort_setBitIdx i)))
  cases c with
  | false => exact hpulse
  | true => exact (cutsShort_sampleTdo i).comp hpulse

theorem endByte_traceGrows (r : Nat) (c : Bool) {s : State} (hrun : s.halted = false) : TraceGrows s (endByte r c s) :=
  traceGrows_kept.trans (traceGrows_kept.of_replyStage c hrun) (.of_eq rfl)

/-- The end of the byte, with its transport write, may be cut before it, not inside it (R140). -/
theorem cutsShort_shiftByte (r : Nat) (c : Bool) (b : Byte) : CutsShort (shiftByte r c b) :=
  (CutsShort.act_of_blind (countdownBlind_endByte r c) (endByte_halted r c) fun _ => endByte_traceGrows r c).comp
    (.foldl (cutsShort_bitTransfer c b) _)

theorem dataByte_of_idle {s : State} (hd : s.dstate = .idle) (b : Byte) : dataByte b s = s := by
  rw [dataByte, hd]

theorem dataByte_of_inShift {s : State} {r : Nat} {c : Bool} (hd : s.dstate = .inShift r c) (b : Byte) :
    dataByte b s = shiftByte r c b s := by
  rw [dataByte, hd]

theorem dataByte_traceGrows (b : Byte) (s : State) : TraceGrows s (dataByte b s) := by
  cases hd : s.dstate with
  | idle => exact .of_eq (by rw [dataByte_of_idle hd])
  | inShift r c =>
    rw [dataByte_of_inShift hd]
    exact traceGrows_kept.of_shiftByte (fun _ _ => .of_eq rfl) b s

/-- Both sides read the session from the same `dstate`. -/
theorem cutsShort_act_dataByte (b : Byte) : CutsShort (act (dataByte b)) := by
  refine .act (fun s _ => ?_) fun s _ => dataByte_traceGrows b s
  cases hd : s.dstate with
  | idle => exact .of_eq_calm (by rw [dataByte_of_idle hd, dataByte_of_idle (s := s.calm) hd])
  | inShift r c =>
    rw [dataByte_of_inShift hd, dataByte_of_inShift (s := s.calm) hd]
    exact (cutsShort_shiftByte r c b).tracks_calm s

theorem cutsShort_act_bodyOf (i : Instr) : CutsShort (act (bodyOf i)) := by
  cases i with
  | snop => exact .act_of_blind countdownBlind_id (fun _ => rfl) fun _ _ => .of_eq rfl
  | bb k m d =>
    exact .act (fun s _ => (cutsShort_bitBang k m d).tracks_calm s) fun s _ =>
      traceGrows_kept.of_bitBang (fun u l v _ => .driveLine u l v) k m d s
  | shift n => exact .act_of_blind (countdownBlind_openSession n false) (fun _ => rfl) fun _ _ => .of_eq rfl
  | shiftc n => exact .act_of_blind (countdownBlind_openSession n true) (fun _ => rfl) fun _ _ => .of_eq rfl
  | data b => exact cutsShort_act_dataByte b

theorem cutsShort_act_flush : CutsShort (act flush) :=
  .act_of_blind countdownBlind_flush flush_halted fun _ hrun =>
    traceGrows_kept.of_flush traceGrows_kept.write traceGrows_kept.drop hrun

/-- The core's step on an event is cut short at most, against the one with no GpioFail coming. -/
theorem onEvent_tracks {e : Event} {s t u : State} (ht : onEvent e s = .next t) (hu : onEvent e s.calm = .next u) :
    Tracks t u := by
  cases e with
  | byte b =>
    rw [onEvent, onByte_eq] at ht hu
    cases ht
    cases hu
    exact (cutsShort_act_bodyOf (decode s.dstate.context b)).tracks_calm s
  | eop =>
    cases ht
    cases hu
    exact cutsShort_act_flush.tracks_calm s
  | gpioFail =>
    cases ht
    cases hu
    exact ⟨nofun, .of_eq rfl⟩

/-! ## What an event that ends in a halted core leaves alone (R134, R140) -/

section
variable {R : State → State → Prop} (K : Kept R)
include K

/-- Where the core ends halted the statement was left out, or it was cut inside. -/
theorem Kept.of_act_of_halted {f : State → State} {s : State}
    (h : ∀ u, u.halted = false → (f u).halted = true → R u (f u)) (hhalt : (act f s).halted = true) :
    R s (act f s) := by
  obtain ⟨-, e⟩ | ⟨hrun, e⟩ := act_cases f s <;> rw [e] at hhalt ⊢
  · exact K.failPoint s
  · exact K.trans (K.failPoint s) (h _ hrun hhalt)

/-- A statement that takes no notice of the halt is not cut inside, so it was left out. -/
theorem Kept.of_act_left_out {f : State → State} {s : State} (hf : ∀ u, (f u).halted = u.halted)
    (hhalt : (act f s).halted = true) : R s (act f s) :=
  K.of_act_of_halted (fun u hrun hcut => absurd (hrun.symm.trans ((hf u).symm.trans hcut)) nofun) hhalt

variable (hl : ∀ (u : State) l v, u.halted = false → R u (u.driveLine l v))
  (hb : ∀ (u : State) i, u.halted = false → R u (u.setBitIdx i))
  (hr : ∀ u : State, u.halted = false → R u u.noteRead)
  (ho : ∀ (u : State) t i, u.halted = false → R u (u.orSample t i))
include hl hb hr ho

/-- The eight transfers are pin operations and updates of the bit index and the accumulator (R90). -/
theorem Kept.of_bitTransfers (c : Bool) (b : Byte) (s : State) : R s (bitTransfers c b s) :=
  K.of_foldl (fun u i => K.of_bitTransfer (fun w l v _ => hl w l v) hb (fun _ => hr) (fun _ => ho) b i u) _ s

/-- A relation kept by those is kept by every event that ends in a halted core: `dstate` and the Reply Buffer are
written behind the last failure point only. -/
theorem EventCase.rel_of_halted {s t : State} {e : Event} (h : EventCase s e t) (hhalt : t.halted = true)
    (hh : R s s.raiseHalt) : R s t := by
  cases h with
  | gpioFail => exact hh
  | eop => exact K.of_act_left_out flush_halted hhalt
  | bitBang => exact K.of_act fun u _ => K.of_bitBang hl _ _ _ u
  | header => exact K.of_act_left_out (fun _ => rfl) hhalt
  | malformed => exact K.of_act_left_out (fun _ => rfl) hhalt
  | data =>
    refine K.of_act_of_halted (fun u _ hcut => ?_) hhalt
    exact K.trans (K.of_bitTransfers hl hb hr ho _ _ u) (K.of_act_left_out (endByte_halted _ _) hcut)

end

/-- `dstate` and the Reply Buffer are the same in both states. -/
structure KeepsSession (s t : State) : Prop where
  dstate : t.dstate = s.dstate
  reply : t.reply = s.reply

theorem keepsSession_kept : Kept KeepsSession where
  refl _ := ⟨rfl, rfl⟩
  trans hst htu := ⟨htu.dstate.trans hst.dstate, htu.reply.trans hst.reply⟩
  failPoint s :=
    have ⟨hdstate, _, _, hreply, _⟩ := s.failPoint_frame
    ⟨hdstate, hreply⟩

theorem EventCase.keepsSession_of_halted {s t : State} {e : Event} (h : EventCase s e t) (hhalt : t.halted = true) :
    KeepsSession s t :=
  h.rel_of_halted keepsSession_kept (fun u l v _ => ⟨State.driveLine_dstate l v u, State.driveLine_reply l v u⟩)
    (fun _ _ _ => ⟨rfl, rfl⟩) (fun _ _ => ⟨rfl, rfl⟩) (fun _ _ _ _ => ⟨rfl, rfl⟩) hhalt ⟨rfl, rfl⟩

/-- Settles O19: the calm run tracks the one that may be cut, it is never cut itself, and a cut comes before the
assignment to `dstate`. -/
theorem gpioFailCutsTheStep : Obligations.GpioFailCutsTheStep := by
  intro s t u e rest hrun hinput he ht hu
  rw [step_cons hinput] at ht
  rw [step_cons (s := s.calm) hinput] at hu
  obtain ⟨hcompleted, hgrows⟩ := onEvent_tracks (s := s.setInput rest) ht hu
  have hcalmRuns : u.halted = s.halted := ((onEvent_case hu).staysCalm he rfl).2
  exact ⟨hcompleted, fun hhalt =>
    ⟨hgrows, ((onEvent_case ht).keepsSession_of_halted hhalt).dstate, hcalmRuns.trans hrun⟩⟩

/-! ## One error in a step at most (R140) -/

/-- A step that halts a running core has written nothing, lost nothing, and left Reply Buffer and `dstate` alone. -/
theorem step_of_halted {s t : State} (h : step s = .next t) (hrun : s.halted = false) (hhalt : t.halted = true) :
    WritesNothing s t ∧ KeepsSession s t := by
  obtain ⟨-, rfl⟩ | ⟨e, rest, -, hcase⟩ := step_case h
  · exact absurd (hrun.symm.trans hhalt) nofun
  · obtain ⟨hoffered, hoverrun⟩ := hcase.writesNothing_of_halted hhalt
    obtain ⟨hdstate, hreply⟩ := hcase.keepsSession_of_halted hhalt
    exact ⟨⟨hoffered, hoverrun⟩, hdstate, hreply⟩

/-- Settles O58: a step that halts was cut before it wrote; one that sets `overrun` was not, and the refused write of
the whole buffer is the one write that a step has. -/
theorem aStepMeetsOneError : Obligations.AStepMeetsOneError := by
  intro s t h hrun
  have hgrows := step_traceGrows h
  refine ⟨fun hhalt => ?_, fun hlost hkept => ⟨?_, ?_⟩⟩
  · obtain ⟨hnothing, hdstate, hreply⟩ := step_of_halted h hrun hhalt
    exact ⟨hnothing.offeredWrites_newOps hgrows, hnothing.overrun, hreply, hdstate⟩
  · refine Bool.eq_false_iff.2 fun hhalt => ?_
    exact absurd (hkept.symm.trans ((step_of_halted h hrun hhalt).1.overrun.symm.trans hlost)) nofun
  · obtain ⟨_, _, _, _, _, _, hmem⟩ := (overrunOnlyByRefusal s t h hkept).1 hlost
    have hrefused : (s.reply, 0) ∈ offeredWrites (newOps s t) := mem_offeredWrites.2 hmem
    obtain ⟨-, hone⟩ := (step_costs h).newOps_le hgrows
    obtain ⟨w, hw⟩ := List.length_eq_one_iff.1 (hone.antisymm (List.length_pos_of_mem hrefused))
    rw [hw, List.mem_singleton] at hrefused
    rw [hw, hrefused]

end Sys2Proof.Machine

/-! # Reset, and the ends of a run (spec/70_reset_and_hazards.md) -/

namespace Sys2Proof.Machine

/-! ## What reset leaves (R150, R151) -/

/-- Settles O7: the fields are those reset is written with, and the first byte meets the `dstate` among them. -/
theorem resetLeavesAnIdleCore : Obligations.ResetLeavesAnIdleCore := by
  refine ⟨rfl, rfl, rfl, rfl, rfl, rfl, fun b => ?_⟩
  rw [step_presentByte, decode_context_idle rfl]
  rfl

/-- Reset leaves the core running with no GpioFail coming, whatever the levels of the lines are. -/
theorem State.resetWith_undisturbed (tck tms tdi : Bool) : (State.resetWith tck tms tdi).Undisturbed := ⟨rfl, rfl⟩

/-- Settles O8: a bit-bang byte writes all three levels, and they are all that the two states after reset differ in. -/
theorem firstBitBangSettlesTheLines : Obligations.FirstBitBangSettlesTheLines := by
  intro k m d x l l'
  have hbb : ∀ l : Levels, exec (.bb k m d x) (State.resetWith l.tck l.tms l.tdi) =
      .next ((State.resetWith l.tck l.tms l.tdi).afterBitBang k m d) :=
    fun l => (State.resetWith_undisturbed _ _ _).exec_bb_eq rfl k m d x
  exact ⟨_, hbb l, hbb l', State.afterBitBang_levels k m d _⟩

/-! ## Runs of several steps -/

theorem steps_succ {s t : State} (h : step s = .next t) (k : Nat) : steps (k + 1) s = steps k t := by
  simp only [steps, h]

/-- A run goes on with the steps of the state it has reached. -/
theorem steps_add {m : Nat} {s t : State} (h : steps m s = .next t) (k : Nat) : steps (m + k) s = steps k t := by
  induction m generalizing s with
  | zero =>
    cases h
    rw [Nat.zero_add]
  | succ m ih =>
    obtain ⟨u, hu⟩ := step_isNext s
    rw [steps_succ hu] at h
    rw [Nat.succ_add, steps_succ hu, ih h]

/-- A property that every step keeps holds at the end of a run that starts with it. -/
theorem steps_preserve {P : State → Prop} (hP : ∀ s t : State, P s → step s = .next t → P t) {k : Nat} {s t : State}
    (hs : P s) (h : steps k s = .next t) : P t := by
  induction k generalizing s with
  | zero =>
    cases h
    exact hs
  | succ k ih =>
    obtain ⟨u, hu⟩ := step_isNext s
    rw [steps_succ hu] at h
    exact ih (hP s u hs hu) h

/-! ## Every run can be ended (R154) -/

/-- So many pending events, so many steps: they are taken, and those behind them are left pending. -/
theorem exists_steps_of_input {s : State} {es rest : List Event} (h : s.input = es ++ rest) :
    ∃ t, steps es.length s = .next t ∧ t.input = rest := by
  induction es generalizing s with
  | nil => exact ⟨s, rfl, h⟩
  | cons e es ih =>
    obtain ⟨u, hu⟩ := step_isNext s
    obtain ⟨t, ht, hrest⟩ := ih (eventsAreTakenInOrder s u e (es ++ rest) h hu)
    exact ⟨t, by rw [List.length_cons, steps_succ hu, ht], hrest⟩

/-- A pending `EOP` ends a run, after as many steps as there are events before it. -/
theorem exists_finiteRun_of_input {s : State} {es rest : List Event} (h : s.input = es ++ .eop :: rest) :
    ∃ t, FiniteRun es.length s t := by
  obtain ⟨u, hu, hinput⟩ := exists_steps_of_input h
  obtain ⟨t, ht⟩ := step_isNext u
  exact ⟨t, u, hu, by rw [hinput, List.head?_cons], ht⟩

/-- Steps before a finite run make it a longer one. -/
theorem FiniteRun.of_steps {m k : Nat} {s u t : State} (h : FiniteRun k u t) (hs : steps m s = .next u) :
    FiniteRun (m + k) s t := by
  obtain ⟨v, hv, hend⟩ := h
  exact ⟨v, (steps_add hs k).trans hv, hend⟩

/-- Settles O56: the pending events are taken, the adapter reads a packet, and its bytes are taken up to its `EOP`. -/
theorem everyRunReachesAnEnd : Obligations.EveryRunReachesAnEnd := by
  intro s
  obtain ⟨v, hv, hempty⟩ := exists_steps_of_input (List.append_nil s.input).symm
  obtain ⟨bs, w, hread, hlen, hpacket, -⟩ := adapterPresentsAPacket v hempty
  obtain ⟨t, hrun⟩ := exists_finiteRun_of_input hpacket
  obtain ⟨u, hu⟩ := step_isNext t
  have hw : steps (s.input.length + 1) s = .next w := by rw [steps_add hv, steps_succ hread]; rfl
  rw [List.length_map] at hrun
  exact ⟨_, t, u, Nat.add_le_add_left hlen _, hrun.of_steps hw, hu⟩

/-! ## What a clean and a complete run have delivered (R120, R154) -/

/-- Eight samples make a byte, and fewer make none (R34). -/
theorem packBytes_length : ∀ ts : List Bool, (packBytes ts).length = ts.length / 8
  | _ :: _ :: _ :: _ :: _ :: _ :: _ :: _ :: ts => by
    simp only [packBytes, List.length_cons, packBytes_length ts]
    omega
  | [] | [_] | [_, _] | [_, _, _] | [_, _, _, _] | [_, _, _, _, _] | [_, _, _, _, _, _] | [_, _, _, _, _, _, _] => by
    simp [packBytes]

theorem State.clean_iff (s : State) : s.clean = true ↔ s.halted = false ∧ s.overrun = false := by
  simp [State.clean]

theorem State.complete_iff (s : State) : s.complete = true ↔ s.clean = true ∧ s.dstate = .idle ∧ s.reply = [] := by
  simp [State.complete, and_assoc]

/-- The law of the reply stream is kept along a finite run, its last `EOP` included. -/
theorem FiniteRun.replyLaw {k : Nat} {s t : State} (h : FiniteRun k s t) (hinv : s.Inv) (hlaw : s.ReplyLaw) :
    t.ReplyLaw := by
  obtain ⟨u, hu, -, ht⟩ := h
  obtain ⟨hinvU, hlawU⟩ : u.Inv ∧ u.ReplyLaw :=
    steps_preserve (P := fun v => v.Inv ∧ v.ReplyLaw)
      (fun v w ⟨hinvV, hlawV⟩ hw => ⟨step_inv hinvV hw, replyStreamLosesNothing v w hinvV hlawV hw⟩) ⟨hinv, hlaw⟩ hu
  exact replyStreamLosesNothing u t hinvU hlawU ht

/-- Settles O57: at a clean end the law of the reply stream says it, and at a complete one nothing is queued. -/
theorem completeRunDeliversEverything : Obligations.CompleteRunDeliversEverything := by
  intro k s t hinv hlaw
  have hend (hrun : FiniteRun k s t) (hclean : t.clean = true) :
      replyStream t.trace ++ t.reply = packBytes (tdoReads t.trace) ∧ (tdoReads t.trace).length % 8 = 0 :=
    have ⟨hhalt, hkept⟩ := t.clean_iff.1 hclean
    hrun.replyLaw hinv hlaw hhalt hkept
  refine ⟨fun ⟨hrun, hclean⟩ => (hend hrun hclean).1, fun ⟨hrun, hcomplete⟩ => ?_⟩
  obtain ⟨hclean, hidle, hreply⟩ := t.complete_iff.1 hcomplete
  obtain ⟨hstream, hwhole⟩ := hend hrun hclean
  rw [hreply, List.append_nil] at hstream
  refine ⟨hstream, ?_, hidle⟩
  rw [hstream, packBytes_length, Nat.mul_div_cancel' (Nat.dvd_of_mod_eq_zero hwhole)]

end Sys2Proof.Machine
